-- ==== Sys2Proof/Word.lean ====
section
/-! DEFINITION. The widths of the values that cross DEC's boundary (spec/00_scope.md R6, R7;
spec/10_state.md R11, R24 to R26). Bit 0 is the least significant bit (R7). -/

namespace Sys2Proof

/-- The instruction word and every value the spec types as `u32` (R11, R12). -/
abbrev Word := BitVec 32

/-- The value of a tag port, `raw_tag` or `ext_tag` (R23, R24). -/
abbrev TagCode := BitVec 3

/-- The value of the `role` port (R23, R25). -/
abbrev RoleCode := BitVec 5

/-- The index of a register inside its file, `IDXW` bits (R6). -/
abbrev RegIndex := BitVec 5

/-- The value of the `desc` port: `desc[7:5]` the file, `desc[4:0]` the index (R26). -/
abbrev DescCode := BitVec 8

end Sys2Proof
end

