-- ==== Sys2Proof/Config.lean ====
section
/-! DEFINITION. What is fixed for one DEC and what the spec leaves open (spec/00_scope.md R6,
spec/93_implementation_defined.md U3, U11). -/

namespace Sys2Proof

/-- The five fixed register indices of R6. The source prints no number for any of them, so the
register mapper takes them as an argument (U11, G1 to G4); the values this machine uses are
`Machine.fixedIndices`. Log entry 6. -/
structure Indices where
  /-- `ZERO_INDEX`: which general register is "the hard-wired zero register". -/
  zero : RegIndex
  /-- `RA_INDEX`: which general register is "the architectural return-address register". -/
  ra   : RegIndex
  /-- `SR_INDEX`: which coprocessor-0 register is the status register. -/
  sr   : RegIndex
  /-- `EPC_INDEX`: which coprocessor-0 register is the exception-PC register. -/
  epc  : RegIndex
  /-- `FCSR_INDEX`: the index of the floating-point control/status register in its own class. -/
  fcsr : RegIndex
  deriving DecidableEq, Repr

/-- FREE VALUE. What the `desc` port shows while `role_err = 1`: "any value" (U3, R127, R134). It
has no body, so nothing can be proved of it; it is a function of all input ports because every
output of DEC is one (R10, R23). No query reads it. Log entry 10. -/
opaque Config.unspecifiedDesc
    (word : Word) (rawTag extTag : TagCode) (extValue : Word) (role : RoleCode) : DescCode

end Sys2Proof
end

