-- ==== Sys2Proof/Syntax.lean ====
section
/-! DEFINITION. The operations of DEC as syntax: one constructor of `Instr` per row of
spec/opcode_table.json, with the operands of spec/30_encoding.md R55. The bundle `f` of a query is
given by its word, which determines it (spec/10_state.md R13). -/

namespace Sys2Proof

/-- The immediate format tag (R16), a closed enumeration. -/
inductive Tag where
  | none | shift | jump | logical | arithmetic
  deriving DecidableEq, Repr

/-- The register role (R14), a closed enumeration of sixteen, in the order of R25. -/
inductive Role where
  | zero | hi | lo | hiLo | ra | rs | rt | rd | cp0Rd | sr | epc | fd | fs | ft | fr | fcsr
  deriving DecidableEq, Repr

/-- The execution width `W` of an extended immediate: 32 and 64 are the admitted values (R107). -/
inductive Width where
  | w32 | w64
  deriving DecidableEq, Repr

/-- The names of the thirteen fields (R12), in the order of its table. -/
inductive FieldName where
  | opcode | rs | rt | rd | shamt | funct | imm | jump | bytes | fmt | ft | fs | fd
  deriving DecidableEq, Repr

/-- The operations of DEC. -/
inductive Instr where
  -- the views, R42 to R46
  | viewR (word : Word)
  | viewI (word : Word)
  | viewJ (word : Word)
  | viewCp1 (word : Word)
  | viewWord (word : Word)
  -- the BitfieldExtractor, R60
  | extract (word mask : Word)
  -- the field decode, R70 to R83
  | decode (word : Word)
  | fieldOpcode (word : Word)
  | fieldRs (word : Word)
  | fieldRt (word : Word)
  | fieldRd (word : Word)
  | fieldShamt (word : Word)
  | fieldFunct (word : Word)
  | fieldImm (word : Word)
  | fieldJump (word : Word)
  | fieldBytes (word : Word)
  | fieldFmt (word : Word)
  | fieldFt (word : Word)
  | fieldFs (word : Word)
  | fieldFd (word : Word)
  -- the raw immediate, R91 to R96; the last takes the tag code itself, one that names no tag
  | immRawNone (word : Word)
  | immRawShift (word : Word)
  | immRawJump (word : Word)
  | immRawLogical (word : Word)
  | immRawArithmetic (word : Word)
  | immRawOther (tag : TagCode) (word : Word)
  -- the extended immediate, R98 to R103: the value is an argument, no field is read
  | immExtNone (width : Width) (value : Word)
  | immExtShift (width : Width) (value : Word)
  | immExtJump (width : Width) (value : Word)
  | immExtLogical (width : Width) (value : Word)
  | immExtArithmetic (width : Width) (value : Word)
  | immExtOther (tag : TagCode) (width : Width) (value : Word)
  -- the composed immediate, R106, for every tag code
  | imm (tag : TagCode) (width : Width) (word : Word)
  -- the register mapper, R111 to R127; the last takes the role code itself, one outside the set
  | regZero (word : Word)
  | regHi (word : Word)
  | regLo (word : Word)
  | regHiLo (word : Word)
  | regRa (word : Word)
  | regRs (word : Word)
  | regRt (word : Word)
  | regRd (word : Word)
  | regCp0Rd (word : Word)
  | regSr (word : Word)
  | regEpc (word : Word)
  | regFd (word : Word)
  | regFs (word : Word)
  | regFt (word : Word)
  | regFr (word : Word)
  | regFcsr (word : Word)
  | regOutOfSet (role : RoleCode) (word : Word)
  -- the example class of R54: opcode 0 and funct 0x20, the other four fields free
  | addClass (rs rt rd shamt : BitVec 5)
  deriving DecidableEq, Repr

end Sys2Proof
end

