-- ==== Sys2Proof/WellFormed.lean ====
section
/-! DEFINITION. Which terms of `Instr` are queries a caller can make: a mask that is not zero
(spec/40_bitfield_extractor.md R62), a tag code that names no tag under the OTHER forms (R96, R103:
codes 5 to 7), a role code outside the closed set under OUT_OF_SET (R127: codes 16 to 31). -/

namespace Sys2Proof

/-- Why a term is ill formed. -/
inductive Malformed where
  /-- `EXTRACT` with mask 0 (R62). -/
  | zeroMask
  /-- an OTHER form under a tag code that names a tag (R24). -/
  | tagIsNamed (tag : TagCode)
  /-- an OUT_OF_SET form under a role code of the closed set (R25). -/
  | roleIsNamed (role : RoleCode)
  deriving DecidableEq, Repr

/-- The check of one OTHER form's tag code. -/
def checkOtherTag (tag : TagCode) : Option Malformed :=
  if tag < 5#3 then some (.tagIsNamed tag) else none

/-- What is wrong with a term, `none` when it is well formed. -/
def Instr.malformed : Instr → Option Malformed
  | .extract _ mask => if mask = 0#32 then some .zeroMask else none
  | .immRawOther tag _ => checkOtherTag tag
  | .immExtOther tag _ _ => checkOtherTag tag
  | .regOutOfSet role _ => if role < 16#5 then some (.roleIsNamed role) else none
  | .viewR _ | .viewI _ | .viewJ _ | .viewCp1 _ | .viewWord _ => none
  | .decode _ | .fieldOpcode _ | .fieldRs _ | .fieldRt _ | .fieldRd _ | .fieldShamt _
  | .fieldFunct _ | .fieldImm _ | .fieldJump _ | .fieldBytes _ | .fieldFmt _ | .fieldFt _
  | .fieldFs _ | .fieldFd _ => none
  | .immRawNone _ | .immRawShift _ | .immRawJump _ | .immRawLogical _ | .immRawArithmetic _ => none
  | .immExtNone _ _ | .immExtShift _ _ | .immExtJump _ _ | .immExtLogical _ _
  | .immExtArithmetic _ _ | .imm _ _ _ => none
  | .regZero _ | .regHi _ | .regLo _ | .regHiLo _ | .regRa _ | .regRs _ | .regRt _ | .regRd _
  | .regCp0Rd _ | .regSr _ | .regEpc _ | .regFd _ | .regFs _ | .regFt _ | .regFr _
  | .regFcsr _ => none
  | .addClass _ _ _ _ => none

/-- The term is a query a caller can make. -/
abbrev Instr.WellFormed (i : Instr) : Prop := i.malformed = none

end Sys2Proof
end

