-- ==== Sys2Proof/Decode.lean ====
section
/-! DEFINITION. A presented query as port values, as bits, and as an instruction.

The spec gives binary codes for the tag and the role (spec/10_state.md R24, R25) and widths for the
ports (R23); it gives none for WHICH operation a caller asks, since every row of its opcode table
matches every word. The operation select `Query.select` and the order of the parts in the 88-bit
form are this model's own: DESIGN CHOICE, log entry 2. -/

namespace Sys2Proof

/-! ## The code spaces of the ports -/

/-- The code of a tag (R24). -/
def Tag.code : Tag → TagCode
  | .none => 0
  | .shift => 1
  | .jump => 2
  | .logical => 3
  | .arithmetic => 4

/-- The tag a code behaves as: codes 5, 6 and 7 name none and behave as `Arithmetic`
(R24, R51, U4). -/
def Tag.ofCode (code : TagCode) : Tag :=
  match code.toNat with
  | 0 => .none
  | 1 => .shift
  | 2 => .jump
  | 3 => .logical
  | _ => .arithmetic

/-- The code of a role (R25). -/
def Role.code : Role → RoleCode
  | .zero => 0
  | .hi => 1
  | .lo => 2
  | .hiLo => 3
  | .ra => 4
  | .rs => 5
  | .rt => 6
  | .rd => 7
  | .cp0Rd => 8
  | .sr => 9
  | .epc => 10
  | .fd => 11
  | .fs => 12
  | .ft => 13
  | .fr => 14
  | .fcsr => 15

/-- The role a code names; codes 16 to 31 are outside the closed set (R25, R52). -/
def Role.ofCode (code : RoleCode) : Option Role :=
  match code.toNat with
  | 0 => some .zero
  | 1 => some .hi
  | 2 => some .lo
  | 3 => some .hiLo
  | 4 => some .ra
  | 5 => some .rs
  | 6 => some .rt
  | 7 => some .rd
  | 8 => some .cp0Rd
  | 9 => some .sr
  | 10 => some .epc
  | 11 => some .fd
  | 12 => some .fs
  | 13 => some .ft
  | 14 => some .fr
  | 15 => some .fcsr
  | _ => none

/-- The number of bits of a width. -/
abbrev Width.bits : Width → Nat
  | .w32 => 32
  | .w64 => 64

/-- The width `W` where the caller names none (R6, R107). -/
abbrev Width.default : Width := .w32

/-- The width a number of bits names, where it is admitted (R107). The number 0, which is no width,
says that the caller names none, and the default is taken: log entry 5. -/
def Width.ofBits (bits : BitVec 8) : Option Width :=
  match bits.toNat with
  | 0 => some .default
  | 32 => some .w32
  | 64 => some .w64
  | _ => none

/-! ## A presented query -/

/-- What a caller presents for one query: the values it puts on the operands, and the operation it
asks. A part the operation does not read may hold anything. -/
structure Query where
  /-- the instruction word -/
  word   : Word
  /-- the mask of `EXTRACT`, the value of `IMM_EXT` -/
  value  : Word
  /-- which operation is asked (the model's own code) -/
  select : BitVec 8
  /-- the width `W`, as a number of bits; 0 for none named -/
  width  : BitVec 8
  /-- the tag code, of `raw_tag`, of `ext_tag`, or of both for `IMM` -/
  tag    : TagCode
  /-- the role code -/
  role   : RoleCode
  deriving DecidableEq, Repr

/-- A query as 88 bits: `word` lowest, so that a bare 32-bit word is a query with everything else
zero. -/
def Query.toBits (q : Query) : BitVec 88 :=
  q.role ++ q.tag ++ q.width ++ q.select ++ q.value ++ q.word

/-- The parts of 88 bits. -/
def Query.ofBits (b : BitVec 88) : Query where
  word   := b.extractLsb' 0 32
  value  := b.extractLsb' 32 32
  select := b.extractLsb' 64 8
  width  := b.extractLsb' 72 8
  tag    := b.extractLsb' 80 3
  role   := b.extractLsb' 83 5

/-- Why a presented query is none of DEC's. -/
inductive Reject where
  /-- the select code names no operation (the model's own code space). -/
  | noSuchOperation (select : BitVec 8)
  /-- `EXTRACT` with mask 0 (R62). -/
  | zeroMask
  /-- `IMM_EXT` or `IMM` at a named width that is neither 32 nor 64 (R107). -/
  | widthNotAdmitted (width : BitVec 8)
  /-- `ADD_CLASS` of a word outside the row's match and mask (R54). -/
  | notAddClass (word : Word)
  deriving DecidableEq, Repr

/-- What decoding a query gives. -/
inductive Decoded where
  | instr (i : Instr)
  | reject (r : Reject)
  deriving DecidableEq, Repr

/-- The instruction, where there is one. -/
def Decoded.instr? : Decoded → Option Instr
  | .instr i => some i
  | .reject _ => none

/-! ## Decoding -/

/-- `ADD_CLASS`'s match (opcode_table.json, R54). -/
def addClassMatch : Word := 0x00000020#32

/-- `ADD_CLASS`'s mask, the masks of `opcode` and `funct` together (opcode_table.json, R54). -/
def addClassMask : Word := 0xFC00003F#32

/-- The word of an ADD-class instruction, by the row's pattern
`000000sssss tttttdddddaaaaa100000` (R54, R42). -/
def addClassWord (rs rt rd shamt : BitVec 5) : Word :=
  0#6 ++ rs ++ rt ++ rd ++ shamt ++ 0x20#6

/-- The `IMM_RAW` form a tag code selects (R91 to R96). -/
def decodeImmRaw (tag : TagCode) (word : Word) : Instr :=
  match tag.toNat with
  | 0 => .immRawNone word
  | 1 => .immRawShift word
  | 2 => .immRawJump word
  | 3 => .immRawLogical word
  | 4 => .immRawArithmetic word
  | _ => .immRawOther tag word

/-- The `IMM_EXT` form a tag code selects (R98 to R103). -/
def decodeImmExt (tag : TagCode) (width : Width) (value : Word) : Instr :=
  match tag.toNat with
  | 0 => .immExtNone width value
  | 1 => .immExtShift width value
  | 2 => .immExtJump width value
  | 3 => .immExtLogical width value
  | 4 => .immExtArithmetic width value
  | _ => .immExtOther tag width value

/-- The `REG` form a role code selects (R111 to R127). -/
def decodeReg (role : RoleCode) (word : Word) : Instr :=
  match Role.ofCode role with
  | some .zero => .regZero word
  | some .hi => .regHi word
  | some .lo => .regLo word
  | some .hiLo => .regHiLo word
  | some .ra => .regRa word
  | some .rs => .regRs word
  | some .rt => .regRt word
  | some .rd => .regRd word
  | some .cp0Rd => .regCp0Rd word
  | some .sr => .regSr word
  | some .epc => .regEpc word
  | some .fd => .regFd word
  | some .fs => .regFs word
  | some .ft => .regFt word
  | some .fr => .regFr word
  | some .fcsr => .regFcsr word
  | none => .regOutOfSet role word

/-- A form that needs an admitted width. -/
def withWidth (width : BitVec 8) (form : Width → Instr) : Decoded :=
  match Width.ofBits width with
  | some w => .instr (form w)
  | none => .reject (.widthNotAdmitted width)

/-- `EXTRACT`'s check of its mask (R62). -/
def decodeExtract (word mask : Word) : Decoded :=
  if mask = 0#32 then .reject .zeroMask else .instr (.extract word mask)

/-- `ADD_CLASS`'s check of its word (R54). -/
def decodeAddClass (word : Word) : Decoded :=
  if word &&& addClassMask = addClassMatch then
    .instr (.addClass (word.extractLsb' 21 5) (word.extractLsb' 16 5)
      (word.extractLsb' 11 5) (word.extractLsb' 6 5))
  else .reject (.notAddClass word)

/-- The operation a query asks for. Select 0 is `DECODE`, so that a bare word is decoded; the other
codes are numbered by the files 30 and 40 to 43 of the spec. -/
def decode (q : Query) : Decoded :=
  match q.select.toNat with
  | 0 => .instr (.decode q.word)
  | 1 => decodeExtract q.word q.value
  | 2 => .instr (.viewR q.word)
  | 3 => .instr (.viewI q.word)
  | 4 => .instr (.viewJ q.word)
  | 5 => .instr (.viewCp1 q.word)
  | 6 => .instr (.viewWord q.word)
  | 7 => .instr (.fieldOpcode q.word)
  | 8 => .instr (.fieldRs q.word)
  | 9 => .instr (.fieldRt q.word)
  | 10 => .instr (.fieldRd q.word)
  | 11 => .instr (.fieldShamt q.word)
  | 12 => .instr (.fieldFunct q.word)
  | 13 => .instr (.fieldImm q.word)
  | 14 => .instr (.fieldJump q.word)
  | 15 => .instr (.fieldBytes q.word)
  | 16 => .instr (.fieldFmt q.word)
  | 17 => .instr (.fieldFt q.word)
  | 18 => .instr (.fieldFs q.word)
  | 19 => .instr (.fieldFd q.word)
  | 20 => .instr (decodeImmRaw q.tag q.word)
  | 21 => withWidth q.width (fun w => decodeImmExt q.tag w q.value)
  | 22 => withWidth q.width (fun w => .imm q.tag w q.word)
  | 23 => .instr (decodeReg q.role q.word)
  | 24 => decodeAddClass q.word
  | _ => .reject (.noSuchOperation q.select)

/-- Decoding 88 bits. -/
def decodeBits (b : BitVec 88) : Decoded := decode (Query.ofBits b)

/-! ## Encoding -/

/-- A query that reads only the word. -/
def wordQuery (select : BitVec 8) (word : Word) : Query :=
  { word := word, value := 0, select := select, width := 0, tag := 0, role := 0 }

/-- An `IMM_RAW` query. -/
def immRawQuery (tag : TagCode) (word : Word) : Query :=
  { wordQuery 20 word with tag := tag }

/-- An `IMM_EXT` query. -/
def immExtQuery (tag : TagCode) (width : Width) (value : Word) : Query :=
  { wordQuery 21 0 with value := value, width := BitVec.ofNat 8 width.bits, tag := tag }

/-- A `REG` query. -/
def regQuery (role : RoleCode) (word : Word) : Query :=
  { wordQuery 23 word with role := role }

/-- The query of an instruction, with zero in the parts it does not read. -/
def encode : Instr → Query
  | .decode word => wordQuery 0 word
  | .extract word mask => { wordQuery 1 word with value := mask }
  | .viewR word => wordQuery 2 word
  | .viewI word => wordQuery 3 word
  | .viewJ word => wordQuery 4 word
  | .viewCp1 word => wordQuery 5 word
  | .viewWord word => wordQuery 6 word
  | .fieldOpcode word => wordQuery 7 word
  | .fieldRs word => wordQuery 8 word
  | .fieldRt word => wordQuery 9 word
  | .fieldRd word => wordQuery 10 word
  | .fieldShamt word => wordQuery 11 word
  | .fieldFunct word => wordQuery 12 word
  | .fieldImm word => wordQuery 13 word
  | .fieldJump word => wordQuery 14 word
  | .fieldBytes word => wordQuery 15 word
  | .fieldFmt word => wordQuery 16 word
  | .fieldFt word => wordQuery 17 word
  | .fieldFs word => wordQuery 18 word
  | .fieldFd word => wordQuery 19 word
  | .immRawNone word => immRawQuery Tag.none.code word
  | .immRawShift word => immRawQuery Tag.shift.code word
  | .immRawJump word => immRawQuery Tag.jump.code word
  | .immRawLogical word => immRawQuery Tag.logical.code word
  | .immRawArithmetic word => immRawQuery Tag.arithmetic.code word
  | .immRawOther tag word => immRawQuery tag word
  | .immExtNone width value => immExtQuery Tag.none.code width value
  | .immExtShift width value => immExtQuery Tag.shift.code width value
  | .immExtJump width value => immExtQuery Tag.jump.code width value
  | .immExtLogical width value => immExtQuery Tag.logical.code width value
  | .immExtArithmetic width value => immExtQuery Tag.arithmetic.code width value
  | .immExtOther tag width value => immExtQuery tag width value
  | .imm tag width word =>
    { wordQuery 22 word with width := BitVec.ofNat 8 width.bits, tag := tag }
  | .regZero word => regQuery Role.zero.code word
  | .regHi word => regQuery Role.hi.code word
  | .regLo word => regQuery Role.lo.code word
  | .regHiLo word => regQuery Role.hiLo.code word
  | .regRa word => regQuery Role.ra.code word
  | .regRs word => regQuery Role.rs.code word
  | .regRt word => regQuery Role.rt.code word
  | .regRd word => regQuery Role.rd.code word
  | .regCp0Rd word => regQuery Role.cp0Rd.code word
  | .regSr word => regQuery Role.sr.code word
  | .regEpc word => regQuery Role.epc.code word
  | .regFd word => regQuery Role.fd.code word
  | .regFs word => regQuery Role.fs.code word
  | .regFt word => regQuery Role.ft.code word
  | .regFr word => regQuery Role.fr.code word
  | .regFcsr word => regQuery Role.fcsr.code word
  | .regOutOfSet role word => regQuery role word
  | .addClass rs rt rd shamt => wordQuery 24 (addClassWord rs rt rd shamt)

/-- The 88 bits of an instruction. -/
def encodeBits (i : Instr) : BitVec 88 := (encode i).toBits

/-! ## The host's two readings of a table word -/

/-- The query whose low `nbits` bits are `w` and whose other bits are zero. A word of
spec/opcode_table.json has 32 bits and carries no operation select, so it is the query `DECODE` of
that word (log entry 3). -/
def tableQuery (nbits w : Nat) : Query := Query.ofBits (BitVec.ofNat 88 (w % 2 ^ nbits))

/-- The instruction the decoder reads from a table word. -/
def decodeTableWord (nbits w : Nat) : Option Instr := (decode (tableQuery nbits w)).instr?

end Sys2Proof
end

