-- ==== Sys2Proof/Machine/State.lean ====
section
/-! DEFINITION. The values DEC answers with (spec/10_state.md R12, R15; spec/30_encoding.md R42 to
R46) and the machine's state. DEC itself holds no state (R10, R22): every field of `State` is the
model's own rendering of the CALLER's side of the interface (log entries 1 and 4). -/

namespace Sys2Proof.Machine

/-! ## The values that cross the boundary -/

/-- The bundle of thirteen fields, each carried as a `u32` with zeros above its width (R12). -/
structure Fields where
  opcode : Word
  rs     : Word
  rt     : Word
  rd     : Word
  shamt  : Word
  funct  : Word
  imm    : Word
  jump   : Word
  bytes  : Word
  fmt    : Word
  ft     : Word
  fs     : Word
  fd     : Word
  deriving DecidableEq, Repr

/-- The register view: six fields that tile the word (R42). -/
structure ViewR where
  opcode : BitVec 6
  rs     : BitVec 5
  rt     : BitVec 5
  rd     : BitVec 5
  shamt  : BitVec 5
  funct  : BitVec 6
  deriving DecidableEq, Repr

/-- The immediate view (R43). -/
structure ViewI where
  opcode : BitVec 6
  rs     : BitVec 5
  rt     : BitVec 5
  imm    : BitVec 16
  deriving DecidableEq, Repr

/-- The jump view (R44). -/
structure ViewJ where
  opcode : BitVec 6
  jump   : BitVec 26
  deriving DecidableEq, Repr

/-- The coprocessor-1 view: the register view's cut with the four middle fields renamed (R45). -/
structure ViewCp1 where
  opcode : BitVec 6
  fmt    : BitVec 5
  ft     : BitVec 5
  fs     : BitVec 5
  fd     : BitVec 5
  funct  : BitVec 6
  deriving DecidableEq, Repr

/-- A register descriptor: the name of one physical register (R15). Two descriptors are equal
exactly when they have the same constructor and index. -/
inductive RegDesc where
  | gpr (i : RegIndex)
  | fpr (i : RegIndex)
  | cp0 (i : RegIndex)
  | hi
  | lo
  | fcr (i : RegIndex)
  deriving DecidableEq, Repr

/-- What one query answers. -/
inductive Answer where
  /-- a `u32`: `EXTRACT`, the thirteen fields, `IMM_RAW`. -/
  | u32 (v : Word)
  /-- the bundle: `DECODE`. -/
  | fields (f : Fields)
  | viewR (v : ViewR)
  | viewI (v : ViewI)
  | viewJ (v : ViewJ)
  | viewCp1 (v : ViewCp1)
  | viewWord (v : Word)
  /-- an immediate at `W = 32`: `IMM_EXT`, `IMM`. -/
  | imm32 (v : BitVec 32)
  /-- an immediate at `W = 64`: `IMM_EXT`, `IMM`. -/
  | imm64 (v : BitVec 64)
  /-- a descriptor: `REG`. -/
  | desc (d : RegDesc)
  /-- the destination and the two sources of an ADD-class word (R54). -/
  | addClass (dest src1 src2 : RegDesc)
  deriving DecidableEq, Repr

/-! ## The state -/

/-- The input ports of R23, holding what the caller drove last (R141). -/
structure Inputs where
  word     : Word
  rawTag   : TagCode
  extTag   : TagCode
  extValue : Word
  role     : RoleCode
  deriving DecidableEq, Repr

/-- The caller's side of DEC: the port values it drives, the queries it has presented and not yet
had answered (oldest first), and the answers it has received and owns (R27; oldest first). -/
structure State where
  inputs  : Inputs
  queue   : List Query
  answers : List Answer
  deriving DecidableEq, Repr

/-- Why the machine stops with a fault. -/
inductive Fault where
  /-- The one error of DEC (R131): raised by `REG` under a role code outside the closed set (R127).
  Fatal and never cleared (R135). Safe: the query has no descriptor. Log entry 9. -/
  | contractViolation (role : RoleCode)
  deriving DecidableEq, Repr

/-- Why a query is refused. -/
inductive Refusal where
  /-- An instruction with no meaning in this model: no arm of `exec` answers it. Safe. -/
  | notModelled (mnemonic : String)
  /-- `EXTRACT` with mask 0, a call the spec gives no value and refuses (R62, D13, U1). Raised by
  `EXTRACT`'s meaning and by fetching such a query. Safe. Log entry 8. -/
  | zeroMask
  /-- An immediate at a named width that is neither 32 nor 64, refused by R107 (D11, U6). Raised by
  fetching such a query. Safe. Log entry 5. -/
  | widthNotAdmitted (width : BitVec 8)
  /-- A select code that names no operation: the bits are no query. Raised by fetching. Safe. Log
  entry 2. -/
  | noSuchOperation (select : BitVec 8)
  /-- `ADD_CLASS` asked of a word outside the row's match and mask. Raised by fetching. Safe. Log
  entry 12. -/
  | notAddClass (word : Word)
  deriving DecidableEq, Repr

/-- The machine before anything is presented. DEC has no reset (R22, R140); that the caller drives
zero on every port and has presented nothing is a DESIGN CHOICE, log entry 4. -/
def State.reset : State where
  inputs  := { word := 0, rawTag := 0, extTag := 0, extValue := 0, role := 0 }
  queue   := []
  answers := []

end Sys2Proof.Machine
end

