-- ==== Sys2Proof/Machine/Flags.lean ====
section
/-! DEFINITION. DEC has no flags or condition codes, and no operation writes one (spec/10_state.md
R10, the paragraph after R21). Its one condition output is `role_err` (R131, R127). -/

namespace Sys2Proof.Machine

/-- `role_err`: the code on the `role` port is outside the closed set; on the port, `role[4] = 1`
(R131). -/
def roleErr (role : RoleCode) : Bool := role.getLsbD 4

end Sys2Proof.Machine
end

