-- ==== Sys2Proof/Machine/Operands.lean ====
section
/-! DEFINITION. The functions of DEC: the BitfieldExtractor (spec/40_bitfield_extractor.md), the
field table and the field decode (spec/30_encoding.md R41, spec/41_field_decode.md), the views, the
format router (spec/42_immediate_router.md) and the register mapper (spec/43_register_mapper.md).
Each is a total pure function of its arguments (spec/00_scope.md R8). -/

namespace Sys2Proof.Machine

/-! ## BitfieldExtractor -/

/-- The least set bit of `m` among `i, i+1, …, i+fuel-1`; `i+fuel` where there is none. -/
def scanSetBit (m : Word) : (fuel i : Nat) → Nat
  | 0, i => i
  | fuel + 1, i => if m.getLsbD i then i else scanSetBit m fuel (i + 1)

/-- `ctz(mask)`, the source's `position_of_lowest_set_bit`, for a mask that is not zero (R61). -/
def ctz (mask : Word) (_ : mask ≠ 0#32) : Nat := scanSetBit mask 32 0

/-- `EXTRACT(word, mask)` for a mask that is not zero (R60, R62). -/
def extract (word mask : Word) (h : mask ≠ 0#32) : Word := (word &&& mask) >>> ctz mask h

/-! ## The field table and the field decode -/

/-- The width of a field (R41). -/
def fieldWidth : FieldName → Nat
  | .opcode | .funct => 6
  | .rs | .rt | .rd | .shamt => 5
  | .fmt | .ft | .fs | .fd => 5
  | .imm => 16
  | .jump => 26
  | .bytes => 32

/-- The position of a field's lowest bit (R41). -/
def fieldOffset : FieldName → Nat
  | .opcode => 26
  | .rs | .fmt => 21
  | .rt | .ft => 16
  | .rd | .fs => 11
  | .shamt | .fd => 6
  | .funct | .imm | .jump | .bytes => 0

/-- The in-place mask, `((2^width) - 1) << offset` (R41). -/
def fieldMask (n : FieldName) : Word :=
  BitVec.ofNat 32 (2 ^ fieldWidth n - 1) <<< fieldOffset n

/-- No mask of the decoder is zero (R62). -/
theorem fieldMask_ne_zero (n : FieldName) : fieldMask n ≠ 0#32 := by cases n <;> decide

/-- One field of a word (R71 to R83). -/
def fieldValue (n : FieldName) (word : Word) : Word :=
  extract word (fieldMask n) (fieldMask_ne_zero n)

/-- `DECODE(word)` (R70). -/
def decodeFields (word : Word) : Fields where
  opcode := fieldValue .opcode word
  rs     := fieldValue .rs word
  rt     := fieldValue .rt word
  rd     := fieldValue .rd word
  shamt  := fieldValue .shamt word
  funct  := fieldValue .funct word
  imm    := fieldValue .imm word
  jump   := fieldValue .jump word
  bytes  := fieldValue .bytes word
  fmt    := fieldValue .fmt word
  ft     := fieldValue .ft word
  fs     := fieldValue .fs word
  fd     := fieldValue .fd word

/-! ## The views: the fields at their own widths -/

/-- The register view of a word (R42). -/
def viewROf (word : Word) : ViewR :=
  let f := decodeFields word
  { opcode := f.opcode.setWidth 6, rs := f.rs.setWidth 5, rt := f.rt.setWidth 5,
    rd := f.rd.setWidth 5, shamt := f.shamt.setWidth 5, funct := f.funct.setWidth 6 }

/-- The immediate view of a word (R43). -/
def viewIOf (word : Word) : ViewI :=
  let f := decodeFields word
  { opcode := f.opcode.setWidth 6, rs := f.rs.setWidth 5, rt := f.rt.setWidth 5,
    imm := f.imm.setWidth 16 }

/-- The jump view of a word (R44). -/
def viewJOf (word : Word) : ViewJ :=
  let f := decodeFields word
  { opcode := f.opcode.setWidth 6, jump := f.jump.setWidth 26 }

/-- The coprocessor-1 view of a word (R45). -/
def viewCp1Of (word : Word) : ViewCp1 :=
  let f := decodeFields word
  { opcode := f.opcode.setWidth 6, fmt := f.fmt.setWidth 5, ft := f.ft.setWidth 5,
    fs := f.fs.setWidth 5, fd := f.fd.setWidth 5, funct := f.funct.setWidth 6 }

/-! ## Format router -/

/-- `IMM_RAW(f, tag)`: which field is the immediate, not extended (R90). -/
def immRaw (f : Fields) : Tag → Word
  | .none => 0
  | .shift => f.shamt
  | .jump => f.jump
  | .logical => f.imm
  | .arithmetic => f.imm

/-- `sext_w(value[15:0])` (R102). -/
def signExtend16 (w : Nat) (value : Word) : BitVec w := (value.setWidth 16).signExtend w

/-- R97's table over the primitives `zext_n` and `sext_n` of R7. The number `n` is free here for the
zero-extension law alone, which speaks of every width that holds the field (R105); the operation is
`immExt`. -/
def extendTo (n : Nat) (tag : Tag) (value : Word) : BitVec n :=
  match tag with
  | .none => value.setWidth n
  | .shift => value.setWidth n
  | .jump => value.setWidth n
  | .logical => value.setWidth n
  | .arithmetic => signExtend16 n value

/-- `IMM_EXT_W(tag, value)` (R97), at the admitted widths and no other (R107): all 32 bits kept and
zeros above, or bit 15 replicated. -/
def immExt (width : Width) (tag : Tag) (value : Word) : BitVec width.bits :=
  extendTo width.bits tag value

/-- The answer of `IMM_EXT` at one of the two admitted widths (R107). -/
def immExtAnswer (width : Width) (tag : Tag) (value : Word) : Answer :=
  match width with
  | .w32 => .imm32 (immExt .w32 tag value)
  | .w64 => .imm64 (immExt .w64 tag value)

/-! ## Register mapper -/

/-- The values of the five fixed indices (R6). They are the spec's decisions D6 to D9, taken from
general knowledge of MIPS and not from the source: PRESUMED, log entry 6. -/
def fixedIndices : Indices where
  zero := 0
  ra   := 31
  sr   := 12
  epc  := 14
  fcsr := 31

/-- A field's value as a register index: its low five bits, all that a 5-bit field has (R15). -/
def regIndex (field : Word) : RegIndex := field.setWidth 5

/-- `RESOLVE_REG(f, role)` for the sixteen roles, under given fixed indices (R110). -/
def resolveReg (ix : Indices) (f : Fields) : Role → RegDesc
  | .zero => .gpr ix.zero
  | .hi => .hi
  | .lo => .lo
  | .hiLo => .lo
  | .ra => .gpr ix.ra
  | .rs => .gpr (regIndex f.rs)
  | .rt => .gpr (regIndex f.rt)
  | .rd => .gpr (regIndex f.rd)
  | .cp0Rd => .cp0 (regIndex f.rd)
  | .sr => .cp0 ix.sr
  | .epc => .cp0 ix.epc
  | .fd => .fpr (regIndex f.fd)
  | .fs => .fpr (regIndex f.fs)
  | .ft => .fpr (regIndex f.ft)
  | .fr => .fpr (regIndex f.fmt)
  | .fcsr => .fcr ix.fcsr

/-- The 8-bit code of a descriptor (R26). -/
def RegDesc.code : RegDesc → DescCode
  | .gpr i => 0#3 ++ i
  | .fpr i => 1#3 ++ i
  | .cp0 i => 2#3 ++ i
  | .hi => 3#3 ++ 0#5
  | .lo => 3#3 ++ 1#5
  | .fcr i => 4#3 ++ i

end Sys2Proof.Machine
end

