-- ==== Sys2Proof/Machine/Ops.lean ====
section
/-! DEFINITION. The shared operations of the machine: driving the input ports, answering a query,
raising the one error, fetching the next presented query. -/

namespace Sys2Proof.Machine

/-! ## Driving the input ports (spec/10_state.md R23, R141; log entry 15) -/

/-- Present an instruction word. -/
def State.driveWord (s : State) (word : Word) : State :=
  { s with inputs := { s.inputs with word := word } }

/-- Present a tag to `IMM_RAW`. -/
def State.driveRawTag (s : State) (tag : TagCode) : State :=
  { s with inputs := { s.inputs with rawTag := tag } }

/-- Present a tag and a value to `IMM_EXT`. -/
def State.driveExt (s : State) (tag : TagCode) (value : Word) : State :=
  { s with inputs := { s.inputs with extTag := tag, extValue := value } }

/-- Present a role to `RESOLVE_REG`. -/
def State.driveRole (s : State) (role : RoleCode) : State :=
  { s with inputs := { s.inputs with role := role } }

/-! ## The two ways a query ends -/

/-- The query completes: the caller receives one more answer, and nothing else changes (R10, R27). -/
def answer (a : Answer) (s : State) : Host.Outcome State Fault Refusal :=
  .next { s with answers := s.answers ++ [a] }

/-- Raising the one error (R131, R134): no state is saved, no mode changes, control goes nowhere; the
report carries the offending role code. There is no return from it (R135). -/
def raiseContractViolation (role : RoleCode) : Host.Outcome State Fault Refusal :=
  .fault (.contractViolation role)

/-! ## The queries by family -/

/-- A query of the word alone. -/
def askWord (a : Word → Answer) (word : Word) (s : State) : Host.Outcome State Fault Refusal :=
  answer (a word) (s.driveWord word)

/-- A query of one field, answered as a `u32` (R12). -/
def askField (n : FieldName) (word : Word) (s : State) : Host.Outcome State Fault Refusal :=
  askWord (fun w => .u32 (fieldValue n w)) word s

/-- `IMM_RAW` under a tag code (R90, R51). -/
def askImmRaw (tag : TagCode) (word : Word) (s : State) : Host.Outcome State Fault Refusal :=
  answer (.u32 (immRaw (decodeFields word) (Tag.ofCode tag))) ((s.driveWord word).driveRawTag tag)

/-- `IMM_EXT` under a tag code (R97, R51). -/
def askImmExt (tag : TagCode) (width : Width) (value : Word) (s : State) :
    Host.Outcome State Fault Refusal :=
  answer (immExtAnswer width (Tag.ofCode tag) value) (s.driveExt tag value)

/-- `IMM`, the same tag in both places (R106). -/
def askImm (tag : TagCode) (width : Width) (word : Word) (s : State) :
    Host.Outcome State Fault Refusal :=
  let raw := immRaw (decodeFields word) (Tag.ofCode tag)
  answer (immExtAnswer width (Tag.ofCode tag) raw)
    (((s.driveWord word).driveRawTag tag).driveExt tag raw)

/-- `REG` under one of the sixteen roles (R110). -/
def askReg (role : Role) (word : Word) (s : State) : Host.Outcome State Fault Refusal :=
  answer (.desc (resolveReg fixedIndices (decodeFields word) role))
    ((s.driveWord word).driveRole role.code)

/-! ## Fetching -/

/-- The next presented query, and the state with it taken off the queue. -/
def fetch (s : State) : Option (Query × State) :=
  match s.queue with
  | [] => none
  | q :: rest => some (q, { s with queue := rest })

/-- What a step does with nothing presented: nothing (log entry 13). -/
def idle (s : State) : Host.Outcome State Fault Refusal := .next s

/-- The refusal of a presented query that is none of DEC's. -/
def refusalOf : Reject → Refusal
  | .noSuchOperation select => .noSuchOperation select
  | .zeroMask => .zeroMask
  | .widthNotAdmitted width => .widthNotAdmitted width
  | .notAddClass word => .notAddClass word

/-- A query is presented ahead of those already waiting. -/
def State.present (s : State) (q : Query) : State := { s with queue := q :: s.queue }

end Sys2Proof.Machine
end

