-- ==== Sys2Proof/Machine/AddClass.lean ====
section
/-! DEFINITION. The meaning of `ADD_CLASS`, the one classification the source makes
(spec/30_encoding.md R54), an example and no decode rule of DEC (R53). Log entry 12. -/

namespace Sys2Proof.Machine

/-- An ADD-class word's destination is the RD role and its sources are the RS and RT roles (R54): the
answer is the three descriptors. What the class computes is not in the spec and not modelled. -/
def execAddClass (rs rt rd shamt : BitVec 5) (s : State) : Host.Outcome State Fault Refusal :=
  let word := addClassWord rs rt rd shamt
  let f := decodeFields word
  answer (.addClass (resolveReg fixedIndices f .rd) (resolveReg fixedIndices f .rs)
    (resolveReg fixedIndices f .rt)) (s.driveWord word)

end Sys2Proof.Machine
end

