-- ==== Sys2Proof/Machine/Extractor.lean ====
section
/-! DEFINITION. The meaning of `EXTRACT` (spec/40_bitfield_extractor.md). -/

namespace Sys2Proof.Machine

/-- `EXTRACT word, mask` (R60); with mask 0 the call is refused (R62). It drives no port of DEC: the
extractor is the block's inner utility (R2, R60). -/
def execExtract (word mask : Word) (s : State) : Host.Outcome State Fault Refusal :=
  if h : mask = 0#32 then .refused .zeroMask else answer (.u32 (extract word mask h)) s

end Sys2Proof.Machine
end

