-- ==== Sys2Proof/Machine/FieldDecode.lean ====
section
/-! DEFINITION. The meanings of `DECODE` and of the thirteen fields (spec/41_field_decode.md R70 to
R83). No word is invalid here (R87). -/

namespace Sys2Proof.Machine

/-- `DECODE word`: all thirteen fields at once (R70, R86). -/
def execDecode (word : Word) (s : State) : Host.Outcome State Fault Refusal :=
  askWord (fun w => .fields (decodeFields w)) word s

/-- `FIELD.opcode` (R71). -/
def execFieldOpcode (word : Word) (s : State) : Host.Outcome State Fault Refusal :=
  askField .opcode word s

/-- `FIELD.rs` (R72). -/
def execFieldRs (word : Word) (s : State) : Host.Outcome State Fault Refusal :=
  askField .rs word s

/-- `FIELD.rt` (R73). -/
def execFieldRt (word : Word) (s : State) : Host.Outcome State Fault Refusal :=
  askField .rt word s

/-- `FIELD.rd` (R74). -/
def execFieldRd (word : Word) (s : State) : Host.Outcome State Fault Refusal :=
  askField .rd word s

/-- `FIELD.shamt` (R75). -/
def execFieldShamt (word : Word) (s : State) : Host.Outcome State Fault Refusal :=
  askField .shamt word s

/-- `FIELD.funct` (R76). -/
def execFieldFunct (word : Word) (s : State) : Host.Outcome State Fault Refusal :=
  askField .funct word s

/-- `FIELD.imm` (R77). -/
def execFieldImm (word : Word) (s : State) : Host.Outcome State Fault Refusal :=
  askField .imm word s

/-- `FIELD.jump` (R78). -/
def execFieldJump (word : Word) (s : State) : Host.Outcome State Fault Refusal :=
  askField .jump word s

/-- `FIELD.bytes` (R79). -/
def execFieldBytes (word : Word) (s : State) : Host.Outcome State Fault Refusal :=
  askField .bytes word s

/-- `FIELD.fmt` (R80). -/
def execFieldFmt (word : Word) (s : State) : Host.Outcome State Fault Refusal :=
  askField .fmt word s

/-- `FIELD.ft` (R81). -/
def execFieldFt (word : Word) (s : State) : Host.Outcome State Fault Refusal :=
  askField .ft word s

/-- `FIELD.fs` (R82). -/
def execFieldFs (word : Word) (s : State) : Host.Outcome State Fault Refusal :=
  askField .fs word s

/-- `FIELD.fd` (R83). -/
def execFieldFd (word : Word) (s : State) : Host.Outcome State Fault Refusal :=
  askField .fd word s

end Sys2Proof.Machine
end

