-- ==== Sys2Proof/Machine/FormatRouter.lean ====
section
/-! DEFINITION. The meanings of `IMM_RAW`, `IMM_EXT` and the composed `IMM`
(spec/42_immediate_router.md). The tag is the caller's declaration; no bit of the word chooses or
checks it (R108). -/

namespace Sys2Proof.Machine

/-- `IMM_RAW.None` (R91). -/
def execImmRawNone (word : Word) (s : State) : Host.Outcome State Fault Refusal :=
  askImmRaw Tag.none.code word s

/-- `IMM_RAW.Shift` (R92). -/
def execImmRawShift (word : Word) (s : State) : Host.Outcome State Fault Refusal :=
  askImmRaw Tag.shift.code word s

/-- `IMM_RAW.Jump` (R93). -/
def execImmRawJump (word : Word) (s : State) : Host.Outcome State Fault Refusal :=
  askImmRaw Tag.jump.code word s

/-- `IMM_RAW.Logical` (R94). -/
def execImmRawLogical (word : Word) (s : State) : Host.Outcome State Fault Refusal :=
  askImmRaw Tag.logical.code word s

/-- `IMM_RAW.Arithmetic` (R95). -/
def execImmRawArithmetic (word : Word) (s : State) : Host.Outcome State Fault Refusal :=
  askImmRaw Tag.arithmetic.code word s

/-- `IMM_RAW.OTHER`: a tag code that names no tag (R96). -/
def execImmRawOther (tag : TagCode) (word : Word) (s : State) : Host.Outcome State Fault Refusal :=
  askImmRaw tag word s

/-- `IMM_EXT.None` (R98). -/
def execImmExtNone (width : Width) (value : Word) (s : State) : Host.Outcome State Fault Refusal :=
  askImmExt Tag.none.code width value s

/-- `IMM_EXT.Shift` (R99). -/
def execImmExtShift (width : Width) (value : Word) (s : State) : Host.Outcome State Fault Refusal :=
  askImmExt Tag.shift.code width value s

/-- `IMM_EXT.Jump` (R100). -/
def execImmExtJump (width : Width) (value : Word) (s : State) : Host.Outcome State Fault Refusal :=
  askImmExt Tag.jump.code width value s

/-- `IMM_EXT.Logical` (R101). -/
def execImmExtLogical (width : Width) (value : Word) (s : State) : Host.Outcome State Fault Refusal :=
  askImmExt Tag.logical.code width value s

/-- `IMM_EXT.Arithmetic` (R102). -/
def execImmExtArithmetic (width : Width) (value : Word) (s : State) : Host.Outcome State Fault Refusal :=
  askImmExt Tag.arithmetic.code width value s

/-- `IMM_EXT.OTHER`: a tag code that names no tag (R103). -/
def execImmExtOther (tag : TagCode) (width : Width) (value : Word) (s : State) : Host.Outcome State Fault Refusal :=
  askImmExt tag width value s

/-- `IMM`: `IMM_EXT_W(tag, IMM_RAW(f, tag))` (R106). -/
def execImm (tag : TagCode) (width : Width) (word : Word) (s : State) : Host.Outcome State Fault Refusal :=
  askImm tag width word s

end Sys2Proof.Machine
end

