-- ==== Sys2Proof/Machine/RegisterMapper.lean ====
section
/-! DEFINITION. The meanings of `REG` under the sixteen roles and outside the closed set
(spec/43_register_mapper.md). No privilege or existence check is made (R119, R136). -/

namespace Sys2Proof.Machine

/-- `REG.ZERO` (R111). -/
def execRegZero (word : Word) (s : State) : Host.Outcome State Fault Refusal :=
  askReg .zero word s

/-- `REG.HI` (R112). -/
def execRegHi (word : Word) (s : State) : Host.Outcome State Fault Refusal :=
  askReg .hi word s

/-- `REG.LO` (R113). -/
def execRegLo (word : Word) (s : State) : Host.Outcome State Fault Refusal :=
  askReg .lo word s

/-- `REG.HI_LO` (R114). -/
def execRegHiLo (word : Word) (s : State) : Host.Outcome State Fault Refusal :=
  askReg .hiLo word s

/-- `REG.RA` (R115). -/
def execRegRa (word : Word) (s : State) : Host.Outcome State Fault Refusal :=
  askReg .ra word s

/-- `REG.RS` (R116). -/
def execRegRs (word : Word) (s : State) : Host.Outcome State Fault Refusal :=
  askReg .rs word s

/-- `REG.RT` (R117). -/
def execRegRt (word : Word) (s : State) : Host.Outcome State Fault Refusal :=
  askReg .rt word s

/-- `REG.RD` (R118). -/
def execRegRd (word : Word) (s : State) : Host.Outcome State Fault Refusal :=
  askReg .rd word s

/-- `REG.CP0_RD` (R119). -/
def execRegCp0Rd (word : Word) (s : State) : Host.Outcome State Fault Refusal :=
  askReg .cp0Rd word s

/-- `REG.SR` (R120). -/
def execRegSr (word : Word) (s : State) : Host.Outcome State Fault Refusal :=
  askReg .sr word s

/-- `REG.EPC` (R121). -/
def execRegEpc (word : Word) (s : State) : Host.Outcome State Fault Refusal :=
  askReg .epc word s

/-- `REG.FD` (R122). -/
def execRegFd (word : Word) (s : State) : Host.Outcome State Fault Refusal :=
  askReg .fd word s

/-- `REG.FS` (R123). -/
def execRegFs (word : Word) (s : State) : Host.Outcome State Fault Refusal :=
  askReg .fs word s

/-- `REG.FT` (R124). -/
def execRegFt (word : Word) (s : State) : Host.Outcome State Fault Refusal :=
  askReg .ft word s

/-- `REG.FR` (R125). -/
def execRegFr (word : Word) (s : State) : Host.Outcome State Fault Refusal :=
  askReg .fr word s

/-- `REG.FCSR` (R126). -/
def execRegFcsr (word : Word) (s : State) : Host.Outcome State Fault Refusal :=
  askReg .fcsr word s

/-- `REG.OUT_OF_SET`: a role code outside the closed set raises the contract violation; no
descriptor results and the word plays no part (R127, R131). -/
def execRegOutOfSet (role : RoleCode) (_ : Word) (_ : State) : Host.Outcome State Fault Refusal :=
  raiseContractViolation role

end Sys2Proof.Machine
end

