-- ==== Sys2Proof/Machine/Views.lean ====
section
/-! DEFINITION. The meanings of the five views (spec/30_encoding.md R42 to R46): the word cut into the
fields that tile it, each at its own width (log entry 14). -/

namespace Sys2Proof.Machine

/-- `VIEW_R` (R42). -/
def execViewR (word : Word) (s : State) : Host.Outcome State Fault Refusal :=
  askWord (fun w => .viewR (viewROf w)) word s

/-- `VIEW_I` (R43). -/
def execViewI (word : Word) (s : State) : Host.Outcome State Fault Refusal :=
  askWord (fun w => .viewI (viewIOf w)) word s

/-- `VIEW_J` (R44). -/
def execViewJ (word : Word) (s : State) : Host.Outcome State Fault Refusal :=
  askWord (fun w => .viewJ (viewJOf w)) word s

/-- `VIEW_CP1` (R45). -/
def execViewCp1 (word : Word) (s : State) : Host.Outcome State Fault Refusal :=
  askWord (fun w => .viewCp1 (viewCp1Of w)) word s

/-- `VIEW_WORD` (R46). -/
def execViewWord (word : Word) (s : State) : Host.Outcome State Fault Refusal :=
  askWord (fun w => .viewWord (fieldValue .bytes w)) word s

end Sys2Proof.Machine
end

