-- ==== Sys2Proof/Machine/Dispatch.lean ====
section
/-! DEFINITION. Every operation of DEC to its meaning, one arm per row of spec/opcode_table.json. -/

namespace Sys2Proof.Machine

/-- The meaning of an instruction. -/
def exec (i : Instr) (s : State) : Host.Outcome State Fault Refusal :=
  match i with
  | .viewR word => Sys2Proof.Machine.execViewR word s
  | .viewI word => Sys2Proof.Machine.execViewI word s
  | .viewJ word => Sys2Proof.Machine.execViewJ word s
  | .viewCp1 word => Sys2Proof.Machine.execViewCp1 word s
  | .viewWord word => Sys2Proof.Machine.execViewWord word s
  | .extract word mask => Sys2Proof.Machine.execExtract word mask s
  | .decode word => Sys2Proof.Machine.execDecode word s
  | .fieldOpcode word => Sys2Proof.Machine.execFieldOpcode word s
  | .fieldRs word => Sys2Proof.Machine.execFieldRs word s
  | .fieldRt word => Sys2Proof.Machine.execFieldRt word s
  | .fieldRd word => Sys2Proof.Machine.execFieldRd word s
  | .fieldShamt word => Sys2Proof.Machine.execFieldShamt word s
  | .fieldFunct word => Sys2Proof.Machine.execFieldFunct word s
  | .fieldImm word => Sys2Proof.Machine.execFieldImm word s
  | .fieldJump word => Sys2Proof.Machine.execFieldJump word s
  | .fieldBytes word => Sys2Proof.Machine.execFieldBytes word s
  | .fieldFmt word => Sys2Proof.Machine.execFieldFmt word s
  | .fieldFt word => Sys2Proof.Machine.execFieldFt word s
  | .fieldFs word => Sys2Proof.Machine.execFieldFs word s
  | .fieldFd word => Sys2Proof.Machine.execFieldFd word s
  | .immRawNone word => Sys2Proof.Machine.execImmRawNone word s
  | .immRawShift word => Sys2Proof.Machine.execImmRawShift word s
  | .immRawJump word => Sys2Proof.Machine.execImmRawJump word s
  | .immRawLogical word => Sys2Proof.Machine.execImmRawLogical word s
  | .immRawArithmetic word => Sys2Proof.Machine.execImmRawArithmetic word s
  | .immRawOther tag word => Sys2Proof.Machine.execImmRawOther tag word s
  | .immExtNone width value => Sys2Proof.Machine.execImmExtNone width value s
  | .immExtShift width value => Sys2Proof.Machine.execImmExtShift width value s
  | .immExtJump width value => Sys2Proof.Machine.execImmExtJump width value s
  | .immExtLogical width value => Sys2Proof.Machine.execImmExtLogical width value s
  | .immExtArithmetic width value => Sys2Proof.Machine.execImmExtArithmetic width value s
  | .immExtOther tag width value => Sys2Proof.Machine.execImmExtOther tag width value s
  | .imm tag width word => Sys2Proof.Machine.execImm tag width word s
  | .regZero word => Sys2Proof.Machine.execRegZero word s
  | .regHi word => Sys2Proof.Machine.execRegHi word s
  | .regLo word => Sys2Proof.Machine.execRegLo word s
  | .regHiLo word => Sys2Proof.Machine.execRegHiLo word s
  | .regRa word => Sys2Proof.Machine.execRegRa word s
  | .regRs word => Sys2Proof.Machine.execRegRs word s
  | .regRt word => Sys2Proof.Machine.execRegRt word s
  | .regRd word => Sys2Proof.Machine.execRegRd word s
  | .regCp0Rd word => Sys2Proof.Machine.execRegCp0Rd word s
  | .regSr word => Sys2Proof.Machine.execRegSr word s
  | .regEpc word => Sys2Proof.Machine.execRegEpc word s
  | .regFd word => Sys2Proof.Machine.execRegFd word s
  | .regFs word => Sys2Proof.Machine.execRegFs word s
  | .regFt word => Sys2Proof.Machine.execRegFt word s
  | .regFr word => Sys2Proof.Machine.execRegFr word s
  | .regFcsr word => Sys2Proof.Machine.execRegFcsr word s
  | .regOutOfSet role word => Sys2Proof.Machine.execRegOutOfSet role word s
  | .addClass rs rt rd shamt => Sys2Proof.Machine.execAddClass rs rt rd shamt s

end Sys2Proof.Machine
end

