-- ==== Sys2Proof/Machine/Step.lean ====
section
/-! DEFINITION. One step of the machine: one presented query is answered. -/

namespace Sys2Proof.Machine

/-- Run a fetched query: the operation it asks for, or its refusal. -/
def runQuery (q : Query) (s : State) : Host.Outcome State Fault Refusal :=
  match decode q with
  | .instr i => exec i s
  | .reject r => .refused (refusalOf r)

/-- Take the oldest presented query and run it. With nothing presented nothing happens: DEC has no
transition of its own (spec/10_state.md R22; log entry 13). -/
def step (s : State) : Host.Outcome State Fault Refusal :=
  match fetch s with
  | none => idle s
  | some (q, s') => runQuery q s'

/-- A table word presented as the next query. DEC fetches nothing (spec/10_state.md R18), so this
is the caller presenting the word (log entry 3). -/
def State.withFetchWord (s : State) (nbits w : Nat) : State := s.present (tableQuery nbits w)

end Sys2Proof.Machine
end

