-- ==== Sys2Proof/Machine/Ports.lean ====
section
/-! DEFINITION. The hardware rendering of DEC: its output ports as combinational functions of its
input ports (spec/10_state.md R23 to R26; spec/60_exceptions.md R134). -/

namespace Sys2Proof.Machine

/-- The output ports of R23, for an instance of one of the admitted widths (R107). The thirteen field
outputs are carried as `u32` (R12). -/
structure Outputs (width : Width) where
  fields  : Fields
  immRaw  : BitVec 32
  immExt  : BitVec width.bits
  desc    : DescCode
  roleErr : Bool
  deriving DecidableEq, Repr

/-- The `desc` port: the code of the descriptor, or, while `role_err` is asserted, a free value
(R26, R127, U3). -/
def descPort (p : Inputs) : DescCode :=
  match Role.ofCode p.role with
  | some role => (resolveReg fixedIndices (decodeFields p.word) role).code
  | none => Config.unspecifiedDesc p.word p.rawTag p.extTag p.extValue p.role

/-- The output ports as functions of the input ports (R23): no clock, no storage (R22). An instance
whose width is not named has the default width (R6). -/
def portOutputs (p : Inputs) (width : Width := .default) : Outputs width where
  fields  := decodeFields p.word
  immRaw  := immRaw (decodeFields p.word) (Tag.ofCode p.rawTag)
  immExt  := immExt width (Tag.ofCode p.extTag) p.extValue
  desc    := descPort p
  roleErr := roleErr p.role

end Sys2Proof.Machine
end

