-- ==== Sys2Proof/Safety.lean ====
section
/-! DEFINITION. What counts as a safe run of DEC, and the terms its claims use. -/

namespace Sys2Proof.Machine

/-- The first contract of the caller (spec/70_reset_and_hazards.md R143 a): a role inside the set.
The second, the pairing of `IMM_EXT` with `IMM_RAW`, is no condition of a query: a different pairing
is not an error (R143 b). -/
def keepsContract : Instr → Bool
  | .regOutOfSet _ _ => false
  | _ => true

/-- `k` steps of the machine. -/
def run (k : Nat) (s : State) : Host.Outcome State Fault Refusal :=
  Host.Core.run Sys2Proof.core k s

/-- A run is safe when no number of steps ends in the one error (R131). -/
def SafeFrom (s : State) : Prop := ∀ k f, run k s ≠ .fault f

/-- The layout equations of spec/41_field_decode.md R85, with R79 and R84. -/
def layout (word : Word) : Fields where
  opcode := word >>> 26
  rs     := (word >>> 21) &&& 0x1F#32
  rt     := (word >>> 16) &&& 0x1F#32
  rd     := (word >>> 11) &&& 0x1F#32
  shamt  := (word >>> 6) &&& 0x1F#32
  funct  := word &&& 0x3F#32
  imm    := word &&& 0xFFFF#32
  jump   := word &&& 0x3FFFFFF#32
  bytes  := word
  fmt    := (word >>> 21) &&& 0x1F#32
  ft     := (word >>> 16) &&& 0x1F#32
  fs     := (word >>> 11) &&& 0x1F#32
  fd     := (word >>> 6) &&& 0x1F#32

/-- The descriptors some role produces: of the class `FCR` only `FCR(FCSR_INDEX)` (R15, R20). -/
def RegDesc.Produced : RegDesc → Prop
  | .fcr i => i = fixedIndices.fcsr
  | _ => True

/-- What every answer of DEC satisfies: a bundle is determined by its `bytes` field (R13); a
descriptor is one that some role produces (R15); a 64-bit immediate is either a zero-extended 32-bit
value or a sign-extended 16-bit one (R97). -/
def Answer.Lawful : Answer → Prop
  | .fields f => f = layout f.bytes
  | .desc d => d.Produced
  | .addClass dest src1 src2 => ∃ i j k, dest = .gpr i ∧ src1 = .gpr j ∧ src2 = .gpr k
  | .imm64 v => v.toNat < 2 ^ 32 ∨ v = (v.setWidth 16).signExtend 64
  | _ => True

/-- The invariant of the machine: the role port holds a code of the closed set, so `role_err` is
not asserted, and every answer given is lawful. -/
structure DecInvariant (s : State) : Prop where
  roleInSet : roleErr s.inputs.role = false
  lawful    : ∀ a ∈ s.answers, a.Lawful

end Sys2Proof.Machine
end

