-- ==== Sys2Proof/Certificates/Slice0/Obligations.lean ====
section
/-! DEFINITION. The statements of this model, for the provers.

An operation of DEC is claimed to COMPLETE (`Answers i s a`: it answers a next state, whose answers
are those before and then `a`); what else it changes is said by the frame statements, as equations
of the whole next state. The record of answers, the queue of presented queries and the port values
held in the state are this model's own (log entries 1 and 4). -/

namespace Sys2Proof.Claims

open Sys2Proof.Machine

/-- The query completes, and the answer the caller receives is `a`. -/
def Answers (i : Instr) (s : State) (a : Answer) : Prop :=
  ∃ t, exec i s = .next t ∧ t.answers = s.answers ++ [a]

/-- A row of the role table: the role code that selects the form, the descriptor the form answers,
and the 8-bit code of that descriptor. -/
def RoleRow (role : RoleCode) (i : Instr) (word : Word) (s : State) (d : RegDesc) (c : DescCode) :
    Prop :=
  decode (regQuery role word) = .instr i ∧ Answers i s (.desc d) ∧ d.code = c

/-- A row of the `IMM_RAW` table: the tag code that selects the form and the value it answers. -/
def RawRow (tag : TagCode) (i : Instr) (word : Word) (s : State) (v : Word) : Prop :=
  decode (immRawQuery tag word) = .instr i ∧ Answers i s (.u32 v)

/-- A row of the `IMM_EXT` table: the tag code that selects the form, and the value it answers at
width 32 and at width 64. -/
def ExtRow (tag : TagCode) (form : Width → Word → Instr) (value : Word) (s : State)
    (v32 : BitVec 32) (v64 : BitVec 64) : Prop :=
  decode (immExtQuery tag .w32 value) = .instr (form .w32 value) ∧
  decode (immExtQuery tag .w64 value) = .instr (form .w64 value) ∧
  Answers (form .w32 value) s (.imm32 v32) ∧ Answers (form .w64 value) s (.imm64 v64)

/-- `v` is the low 16 bits of `value` with bit 15 in every higher bit (spec/00_scope.md R7,
`sext`). -/
def SignExtends16 {n : Nat} (value : Word) (v : BitVec n) : Prop :=
  ∀ k < n, v.getLsbD k = value.getLsbD (if k < 16 then k else 15)

end Sys2Proof.Claims

open Sys2Proof Sys2Proof.Machine Sys2Proof.Claims

/-! ## BitfieldExtractor -/

/-- R60, R61, R63. `EXTRACT` with a mask that is not zero answers the masked word shifted right by the
position of the mask's least set bit; the mask need not be contiguous. -/
def Obligations.ExtractShiftsMaskedWordByLowestSetBit : Prop :=
  ∀ (word mask : Word) (s : State), mask ≠ 0#32 →
    ∃ n, n < 32 ∧ mask.getLsbD n = true ∧ (∀ j < n, mask.getLsbD j = false) ∧
      Answers (.extract word mask) s (.u32 ((word &&& mask) >>> n))

/-- Two consequences beside O1. That the result is at most the mask, so shifted, the spec derives (R60
marks its sentence "[derived: from this rule]"); that `EXTRACT` drives no port, so that the whole next
state is the old one with one answer more, is log entry 15, the model's choice. -/
def Obligations.ExtractStaysBelowItsMaskAndDrivesNoPort : Prop :=
  ∀ (word mask : Word) (s : State), mask ≠ 0#32 →
    ∃ v : Word, exec (.extract word mask) s =
        .next { s with answers := s.answers ++ [.u32 v] } ∧
      ∀ n, mask.getLsbD n = true → (∀ j < n, mask.getLsbD j = false) →
        v.toNat ≤ (mask >>> n).toNat

/-- Spec decision D13 (log entry 8). `EXTRACT` with mask 0 has no value: the call is refused, as a
meaning and as a presented query. -/
def Obligations.ExtractWithZeroMaskIsRefused : Prop :=
  (∀ (word : Word) (s : State), exec (.extract word 0#32) s = .refused .zeroMask) ∧
  ∀ (q : Query) (rest : List Query) (s : State), s.queue = q :: rest → q.select = 1#8 →
    q.value = 0#32 → step s = .refused .zeroMask

/-- The contiguous-mask law, which the spec derives from R60 and R61 (its rule R64): a mask of `w`
ones at position `o` selects the bit range `o+w-1 : o`. -/
def Obligations.ContiguousMaskSelectsABitRange : Prop :=
  ∀ (word : Word) (s : State) (w o : Nat), 1 ≤ w → o + w ≤ 32 →
    Answers (.extract word (BitVec.ofNat 32 (2 ^ w - 1) <<< o)) s
      (.u32 ((word >>> o) &&& BitVec.ofNat 32 (2 ^ w - 1))) ∧
    ((word >>> o) &&& BitVec.ofNat 32 (2 ^ w - 1)).toNat < 2 ^ w

/-! ## Field decode -/

/-- R70. `DECODE` answers a bundle for every word, and each of its thirteen fields is what `EXTRACT`
answers for the word and that field's mask. -/
def Obligations.DecodeExtractsThirteenFields : Prop :=
  ∀ (word : Word) (s : State), ∃ f : Fields,
    Answers (.decode word) s (.fields f) ∧
    Answers (.extract word 0xFC000000#32) s (.u32 f.opcode) ∧
    Answers (.extract word 0x03E00000#32) s (.u32 f.rs) ∧
    Answers (.extract word 0x001F0000#32) s (.u32 f.rt) ∧
    Answers (.extract word 0x0000F800#32) s (.u32 f.rd) ∧
    Answers (.extract word 0x000007C0#32) s (.u32 f.shamt) ∧
    Answers (.extract word 0x0000003F#32) s (.u32 f.funct) ∧
    Answers (.extract word 0x0000FFFF#32) s (.u32 f.imm) ∧
    Answers (.extract word 0x03FFFFFF#32) s (.u32 f.jump) ∧
    Answers (.extract word 0xFFFFFFFF#32) s (.u32 f.bytes) ∧
    Answers (.extract word 0x03E00000#32) s (.u32 f.fmt) ∧
    Answers (.extract word 0x001F0000#32) s (.u32 f.ft) ∧
    Answers (.extract word 0x0000F800#32) s (.u32 f.fs) ∧
    Answers (.extract word 0x000007C0#32) s (.u32 f.fd)

/-- R12. Bit by bit: a field is the named bits of the word, right-justified, with zeros above its
width; and the four coprocessor-1 fields are aliases. -/
def Obligations.FieldsAreTheNamedBitsOfTheWord : Prop :=
  ∀ (word : Word) (s : State), ∃ f : Fields, Answers (.decode word) s (.fields f) ∧
    (∀ k, f.opcode.getLsbD k = (decide (k < 6) && word.getLsbD (26 + k)) ∧
      f.rs.getLsbD k = (decide (k < 5) && word.getLsbD (21 + k)) ∧
      f.rt.getLsbD k = (decide (k < 5) && word.getLsbD (16 + k)) ∧
      f.rd.getLsbD k = (decide (k < 5) && word.getLsbD (11 + k)) ∧
      f.shamt.getLsbD k = (decide (k < 5) && word.getLsbD (6 + k)) ∧
      f.funct.getLsbD k = (decide (k < 6) && word.getLsbD k) ∧
      f.imm.getLsbD k = (decide (k < 16) && word.getLsbD k) ∧
      f.jump.getLsbD k = (decide (k < 26) && word.getLsbD k)) ∧
    f.bytes = word ∧ f.fmt = f.rs ∧ f.ft = f.rt ∧ f.fs = f.rd ∧ f.fd = f.shamt

/-- R85. The layout equations, the round trip, and that different words give different bundles. -/
def Obligations.LayoutRoundTripAndInjectivity : Prop :=
  (∀ (word : Word) (s : State), ∃ f : Fields, Answers (.decode word) s (.fields f) ∧
    f.opcode = word >>> 26 ∧ f.rs = (word >>> 21) &&& 0x1F#32 ∧
    f.rt = (word >>> 16) &&& 0x1F#32 ∧ f.rd = (word >>> 11) &&& 0x1F#32 ∧
    f.shamt = (word >>> 6) &&& 0x1F#32 ∧ f.funct = word &&& 0x3F#32 ∧
    f.imm = word &&& 0xFFFF#32 ∧ f.jump = word &&& 0x3FFFFFF#32 ∧ f.bytes = word ∧
    (f.opcode <<< 26 ||| f.rs <<< 21 ||| f.rt <<< 16 ||| f.rd <<< 11 ||| f.shamt <<< 6 |||
      f.funct) = word) ∧
  ∀ (word word' : Word) (s s' : State) (f : Fields), Answers (.decode word) s (.fields f) →
    Answers (.decode word') s' (.fields f) → word = word'

/-- R84. For every word the floating-point aliases equal their integer-field counterparts, asked as
fields and in the bundle. -/
def Obligations.FloatingPointAliasesEqualIntegerFields : Prop :=
  ∀ (word : Word) (s : State), ∃ f : Fields, Answers (.decode word) s (.fields f) ∧
    f.fmt = f.rs ∧ f.ft = f.rt ∧ f.fs = f.rd ∧ f.fd = f.shamt ∧
    Answers (.fieldFmt word) s (.u32 f.rs) ∧ Answers (.fieldRs word) s (.u32 f.fmt) ∧
    Answers (.fieldFt word) s (.u32 f.rt) ∧ Answers (.fieldRt word) s (.u32 f.ft) ∧
    Answers (.fieldFs word) s (.u32 f.rd) ∧ Answers (.fieldRd word) s (.u32 f.fs) ∧
    Answers (.fieldFd word) s (.u32 f.shamt) ∧ Answers (.fieldShamt word) s (.u32 f.fd)

/-- R71 to R76. The six register-view fields, each with its range. -/
def Obligations.RegisterViewFieldQueriesAnswerTheirBits : Prop :=
  ∀ (word : Word) (s : State),
    Answers (.fieldOpcode word) s (.u32 (word >>> 26)) ∧ (word >>> 26).toNat ≤ 63 ∧
    Answers (.fieldRs word) s (.u32 ((word >>> 21) &&& 0x1F#32)) ∧
    ((word >>> 21) &&& 0x1F#32).toNat ≤ 31 ∧
    Answers (.fieldRt word) s (.u32 ((word >>> 16) &&& 0x1F#32)) ∧
    ((word >>> 16) &&& 0x1F#32).toNat ≤ 31 ∧
    Answers (.fieldRd word) s (.u32 ((word >>> 11) &&& 0x1F#32)) ∧
    ((word >>> 11) &&& 0x1F#32).toNat ≤ 31 ∧
    Answers (.fieldShamt word) s (.u32 ((word >>> 6) &&& 0x1F#32)) ∧
    ((word >>> 6) &&& 0x1F#32).toNat ≤ 31 ∧
    Answers (.fieldFunct word) s (.u32 (word &&& 0x3F#32)) ∧ (word &&& 0x3F#32).toNat ≤ 63

/-- R77 to R79. The three wide fields: `imm`, unsigned and not extended; `jump`, not scaled; and
`bytes`, the identity. -/
def Obligations.WideFieldQueriesAnswerTheirBits : Prop :=
  ∀ (word : Word) (s : State),
    Answers (.fieldImm word) s (.u32 (word &&& 0xFFFF#32)) ∧
    (word &&& 0xFFFF#32).toNat ≤ 65535 ∧
    Answers (.fieldJump word) s (.u32 (word &&& 0x3FFFFFF#32)) ∧
    (word &&& 0x3FFFFFF#32).toNat ≤ 0x3FFFFFF ∧
    Answers (.fieldBytes word) s (.u32 word)

/-- A relation the spec derives from the cuts of the views (R77 marks its sentence "[derived: from
30_encoding.md rule R43]"): `imm` is the `rd`, `shamt` and `funct` bits side by side. -/
def Obligations.ImmIsRdShamtAndFunctTogether : Prop :=
  ∀ (word : Word) (s : State), ∃ imm rd shamt funct : Word,
    Answers (.fieldImm word) s (.u32 imm) ∧ Answers (.fieldRd word) s (.u32 rd) ∧
    Answers (.fieldShamt word) s (.u32 shamt) ∧ Answers (.fieldFunct word) s (.u32 funct) ∧
    imm = (rd <<< 11 ||| shamt <<< 6 ||| funct)

/-- R80 to R83. The four coprocessor-1 fields, each with its range and its integer alias. -/
def Obligations.Coprocessor1FieldQueriesAnswerTheirBits : Prop :=
  ∀ (word : Word) (s : State), ∃ fmt ft fs fd : Word,
    (Answers (.fieldFmt word) s (.u32 fmt) ∧ Answers (.fieldRs word) s (.u32 fmt) ∧
      fmt = (word.extractLsb' 21 5).setWidth 32 ∧ fmt.toNat ≤ 31) ∧
    (Answers (.fieldFt word) s (.u32 ft) ∧ Answers (.fieldRt word) s (.u32 ft) ∧
      ft = (word.extractLsb' 16 5).setWidth 32 ∧ ft.toNat ≤ 31) ∧
    (Answers (.fieldFs word) s (.u32 fs) ∧ Answers (.fieldRd word) s (.u32 fs) ∧
      fs = (word.extractLsb' 11 5).setWidth 32 ∧ fs.toNat ≤ 31) ∧
    (Answers (.fieldFd word) s (.u32 fd) ∧ Answers (.fieldShamt word) s (.u32 fd) ∧
      fd = (word.extractLsb' 6 5).setWidth 32 ∧ fd.toNat ≤ 31)

/-- Each view's fields, laid side by side in the view's order, are the word: disjoint and covering all
32 bits (the cuts of R42 to R46). That a view is answered as a record of its fields is log entry 14,
the model's choice; that `imm` is `rd`, `shamt`, `funct` and `jump` is `rs`, `rt`, `imm` the spec
derives ("[derived: from rule R41]", in R43 and R44). -/
def Obligations.ViewsTileTheWord : Prop :=
  ∀ (word : Word) (s : State), ∃ (r : ViewR) (i : ViewI) (j : ViewJ) (c : ViewCp1),
    (Answers (.viewR word) s (.viewR r) ∧
      r.opcode ++ r.rs ++ r.rt ++ r.rd ++ r.shamt ++ r.funct = word) ∧
    (Answers (.viewI word) s (.viewI i) ∧ i.opcode ++ i.rs ++ i.rt ++ i.imm = word ∧
      i.imm = r.rd ++ r.shamt ++ r.funct) ∧
    (Answers (.viewJ word) s (.viewJ j) ∧ j.opcode ++ j.jump = word ∧
      j.jump = r.rs ++ r.rt ++ i.imm) ∧
    (Answers (.viewCp1 word) s (.viewCp1 c) ∧
      c.opcode ++ c.fmt ++ c.ft ++ c.fs ++ c.fd ++ c.funct = word) ∧
    Answers (.viewWord word) s (.viewWord word)

/-- No instruction word is illegal (R50), said of a step: a bare word, whatever it is, presented as the
host presents a table word, is decoded, and the queries that wait still wait. That a bare word is the
query `DECODE` is log entry 3, and the queue is log entry 1, both the model's choice. -/
def Obligations.NoInstructionWordIsIllegal : Prop :=
  ∀ (word : Word) (s : State), ∃ (f : Fields) (t : State),
    step (s.withFetchWord 32 word.toNat) = .next t ∧ t.answers = s.answers ++ [.fields f] ∧
    f.bytes = word ∧ t.queue = s.queue

/-- Log entry 12 (the answer's form is the model's choice; the class is R54's example). A word of the
class has opcode 0 and funct 0x20; the answer is the descriptor of its RD role, then those of its RS
and RT roles; and the source's word `0x00641820` names registers 3, 3 and 4. -/
def Obligations.AddClassNamesItsDestinationAndSources : Prop :=
  (∀ (rs rt rd shamt : BitVec 5) (s : State), ∃ (word : Word) (dest src1 src2 : RegDesc),
    Answers (.addClass rs rt rd shamt) s (.addClass dest src1 src2) ∧
    word = 0#6 ++ rs ++ rt ++ rd ++ shamt ++ 0x20#6 ∧
    Answers (.fieldOpcode word) s (.u32 0#32) ∧ Answers (.fieldFunct word) s (.u32 0x20#32) ∧
    Answers (.regRd word) s (.desc dest) ∧ Answers (.regRs word) s (.desc src1) ∧
    Answers (.regRt word) s (.desc src2) ∧ dest = .gpr rd ∧ src1 = .gpr rs ∧ src2 = .gpr rt) ∧
  decode (wordQuery 24 0x00641820#32) = .instr (.addClass 3 4 3 0)

/-! ## Format router -/

/-- R91 to R96, with R90. `IMM_RAW` by tag: nothing is extended, shifted or scaled. -/
def Obligations.ImmRawSelectsTheFieldOfItsTag : Prop :=
  ∀ (word : Word) (s : State),
    RawRow 0 (.immRawNone word) word s 0#32 ∧
    RawRow 1 (.immRawShift word) word s ((word >>> 6) &&& 0x1F#32) ∧
    ((word >>> 6) &&& 0x1F#32).toNat ≤ 31 ∧
    RawRow 2 (.immRawJump word) word s (word &&& 0x3FFFFFF#32) ∧
    (word &&& 0x3FFFFFF#32).toNat ≤ 0x3FFFFFF ∧
    RawRow 3 (.immRawLogical word) word s (word &&& 0xFFFF#32) ∧
    RawRow 4 (.immRawArithmetic word) word s (word &&& 0xFFFF#32) ∧
    (word &&& 0xFFFF#32).toNat ≤ 0xFFFF ∧
    ∀ tag : TagCode, 5 ≤ tag.toNat →
      RawRow tag (.immRawOther tag word) word s (word &&& 0xFFFF#32)

/-- R98 to R101. Under the four zero-extending tags all 32 bits of the value are kept, with zeros
above. -/
def Obligations.ImmExtKeepsTheValueUnderZeroExtendingTags : Prop :=
  ∀ (value : Word) (s : State),
    ExtRow 0 .immExtNone value s value (0#32 ++ value) ∧
    ExtRow 1 .immExtShift value s value (0#32 ++ value) ∧
    ExtRow 2 .immExtJump value s value (0#32 ++ value) ∧
    ExtRow 3 .immExtLogical value s value (0#32 ++ value)

/-- R102 at both widths, for values of more than 16 bits too, where the spec decides (D12, log entry
11) that bits 31:16 are ignored: bits 15:0 pass and every higher bit is bit 15. -/
def Obligations.ImmExtSignExtendsUnderArithmetic : Prop :=
  ∀ (value : Word) (s : State), ∃ (v32 : BitVec 32) (v64 : BitVec 64),
    ExtRow 4 .immExtArithmetic value s v32 v64 ∧
    SignExtends16 value v32 ∧ SignExtends16 value v64

/-- A tag code that names no tag (5 to 7) is no error (R51): `IMM_RAW` answers `imm` (R96) and `IMM_EXT`
sign-extends the low 16 bits (R103), both as under `Arithmetic`. That bits 31:16 of a value of 2^16 or
above are ignored, under these tags and under `Arithmetic`, is the spec's decision D12 (log entry 11). -/
def Obligations.UnnamedTagsActAsArithmetic : Prop :=
  ∀ (tag : TagCode) (word value : Word) (s : State), 5 ≤ tag.toNat →
    (∃ r, RawRow tag (.immRawOther tag word) word s r ∧
      Answers (.immRawArithmetic word) s (.u32 r) ∧ Answers (.fieldImm word) s (.u32 r)) ∧
    ∃ (v32 : BitVec 32) (v64 : BitVec 64),
      ExtRow tag (.immExtOther tag) value s v32 v64 ∧
      Answers (.immExtArithmetic .w32 value) s (.imm32 v32) ∧
      Answers (.immExtArithmetic .w64 value) s (.imm64 v64) ∧
      SignExtends16 value v32 ∧ SignExtends16 value v64

/-- R104, its sentence on width 32. A 16-bit immediate with bit 15 set becomes `imm | 0xFFFF0000`
under the arithmetic tag, and with bit 15 clear is unchanged. -/
def Obligations.SignExtensionLaw : Prop :=
  ∀ (imm : Word) (s : State), imm.toNat < 2 ^ 16 →
    (imm.getLsbD 15 = true →
      Answers (.immExtArithmetic .w32 imm) s (.imm32 (imm ||| 0xFFFF0000#32))) ∧
    (imm.getLsbD 15 = false → Answers (.immExtArithmetic .w32 imm) s (.imm32 imm))

/-- R105. Under `Shift`, `Jump` and the logical tag (and `None`) the extension of the raw field, at
any width that holds the field, is the same unsigned number; the machine's answers at 32 and 64 bits
are that extension. -/
def Obligations.ZeroExtensionLaw : Prop :=
  ∀ (word : Word) (s : State), ∃ shamt jump imm : Word,
    Answers (.immRawShift word) s (.u32 shamt) ∧ Answers (.immRawJump word) s (.u32 jump) ∧
    Answers (.immRawLogical word) s (.u32 imm) ∧
    (∀ n, 5 ≤ n → (extendTo n .shift shamt).toNat = shamt.toNat) ∧
    (∀ n, 26 ≤ n → (extendTo n .jump jump).toNat = jump.toNat) ∧
    (∀ n, 16 ≤ n → (extendTo n .logical imm).toNat = imm.toNat) ∧
    (∀ n, (extendTo n .none 0#32).toNat = 0) ∧
    Answers (.immExtShift .w32 shamt) s (.imm32 (extendTo 32 .shift shamt)) ∧
    Answers (.immExtShift .w64 shamt) s (.imm64 (extendTo 64 .shift shamt)) ∧
    Answers (.immExtJump .w32 jump) s (.imm32 (extendTo 32 .jump jump)) ∧
    Answers (.immExtJump .w64 jump) s (.imm64 (extendTo 64 .jump jump)) ∧
    Answers (.immExtLogical .w32 imm) s (.imm32 (extendTo 32 .logical imm)) ∧
    Answers (.immExtLogical .w64 imm) s (.imm64 (extendTo 64 .logical imm))

/-- The admitted widths are 32 and 64, 32 where the caller names none, and no other (spec decision D11;
that a width part of 0 names none is log entry 5, the select codes and the queue are log entries 2 and
1). The output port is of the instance's width, by default 32. -/
def Obligations.WidthIsThirtyTwoOrSixtyFourAndThirtyTwoByDefault : Prop :=
  (∀ (q : Query) (rest : List Query) (s : State), s.queue = q :: rest →
    q.select = 21#8 ∨ q.select = 22#8 →
    (q.width = 32#8 → ∃ t v, step s = .next t ∧ t.answers = s.answers ++ [.imm32 v]) ∧
    (q.width = 64#8 → ∃ t v, step s = .next t ∧ t.answers = s.answers ++ [.imm64 v]) ∧
    (q.width = 0#8 → step s = step { s with queue := { q with width := 32#8 } :: rest }) ∧
    (q.width ≠ 0#8 → q.width ≠ 32#8 → q.width ≠ 64#8 →
      step s = .refused (.widthNotAdmitted q.width))) ∧
  ∀ p : Inputs, portOutputs p = portOutputs p .w32

/-- R49. The composed immediate by tag: no immediate is scaled, shifted or assembled from scattered
bits; each is one field, right-justified, zero-extended but under `Arithmetic` and every other tag,
which sign-extend from bit 15. -/
def Obligations.ComposedImmediateByTag : Prop :=
  ∀ (word : Word) (s : State),
    (Answers (.imm 0 .w32 word) s (.imm32 0#32) ∧ Answers (.imm 0 .w64 word) s (.imm64 0#64)) ∧
    (Answers (.imm 1 .w32 word) s (.imm32 (0#27 ++ word.extractLsb' 6 5)) ∧
      Answers (.imm 1 .w64 word) s (.imm64 (0#59 ++ word.extractLsb' 6 5))) ∧
    (Answers (.imm 2 .w32 word) s (.imm32 (0#6 ++ word.extractLsb' 0 26)) ∧
      Answers (.imm 2 .w64 word) s (.imm64 (0#38 ++ word.extractLsb' 0 26))) ∧
    (Answers (.imm 3 .w32 word) s (.imm32 (0#16 ++ word.extractLsb' 0 16)) ∧
      Answers (.imm 3 .w64 word) s (.imm64 (0#48 ++ word.extractLsb' 0 16))) ∧
    ∀ tag : TagCode, 4 ≤ tag.toNat → ∃ (v32 : BitVec 32) (v64 : BitVec 64),
      Answers (.imm tag .w32 word) s (.imm32 v32) ∧ Answers (.imm tag .w64 word) s (.imm64 v64) ∧
      SignExtends16 word v32 ∧ SignExtends16 word v64

/-- The composition the spec derives (its rule R106): for every tag code and width, `IMM` answers what
`IMM_EXT` answers under that tag for the value `IMM_RAW` answers under it. -/
def Obligations.ComposedImmediateIsExtOfRaw : Prop :=
  ∀ (tag : TagCode) (width : Width) (word : Word) (s : State), ∃ (r : Word) (a : Answer),
    Answers (decodeImmRaw tag word) s (.u32 r) ∧ Answers (decodeImmExt tag width r) s a ∧
    Answers (.imm tag width word) s a

/-- The spec's decision D24 (its rule R143 b). An unpaired use is no error: `IMM_EXT` under
`Arithmetic` of the raw jump field sign-extends bit 15 of the word and drops bits 25:16. -/
def Obligations.UnpairedJumpValueIsSignExtended : Prop :=
  ∀ (word : Word) (s : State), ∃ (jump : Word) (v : BitVec 32),
    Answers (.immRawJump word) s (.u32 jump) ∧
    Answers (.immExtArithmetic .w32 jump) s (.imm32 v) ∧ SignExtends16 word v

/-! ## Register mapper -/

/-- R110. The role table row for row, with the five fixed indices as the parameters they are, and the
contract violation for any other role value. -/
def Obligations.RoleTable : Prop :=
  ∀ (word : Word) (s : State), ∃ f : Fields, Answers (.decode word) s (.fields f) ∧
    Answers (.regZero word) s (.desc (.gpr fixedIndices.zero)) ∧
    Answers (.regHi word) s (.desc .hi) ∧
    Answers (.regLo word) s (.desc .lo) ∧
    Answers (.regHiLo word) s (.desc .lo) ∧
    Answers (.regRa word) s (.desc (.gpr fixedIndices.ra)) ∧
    Answers (.regRs word) s (.desc (.gpr (f.rs.setWidth 5))) ∧
    Answers (.regRt word) s (.desc (.gpr (f.rt.setWidth 5))) ∧
    Answers (.regRd word) s (.desc (.gpr (f.rd.setWidth 5))) ∧
    Answers (.regCp0Rd word) s (.desc (.cp0 (f.rd.setWidth 5))) ∧
    Answers (.regSr word) s (.desc (.cp0 fixedIndices.sr)) ∧
    Answers (.regEpc word) s (.desc (.cp0 fixedIndices.epc)) ∧
    Answers (.regFd word) s (.desc (.fpr (f.fd.setWidth 5))) ∧
    Answers (.regFs word) s (.desc (.fpr (f.fs.setWidth 5))) ∧
    Answers (.regFt word) s (.desc (.fpr (f.ft.setWidth 5))) ∧
    Answers (.regFr word) s (.desc (.fpr (f.fmt.setWidth 5))) ∧
    Answers (.regFcsr word) s (.desc (.fcr fixedIndices.fcsr)) ∧
    ∀ role : RoleCode, 16 ≤ role.toNat → decode (regQuery role word) = .instr (.regOutOfSet role word) ∧
      exec (.regOutOfSet role word) s = .fault (.contractViolation role)

/-- R116 to R119. The roles that index the general-purpose and the coprocessor-0 file: role code,
descriptor and descriptor code. -/
def Obligations.GprAndCp0RolesNameTheirField : Prop :=
  ∀ (word : Word) (s : State),
    RoleRow 5 (.regRs word) word s (.gpr (word.extractLsb' 21 5))
      (0x00#8 ||| (word.extractLsb' 21 5).setWidth 8) ∧
    RoleRow 6 (.regRt word) word s (.gpr (word.extractLsb' 16 5))
      (0x00#8 ||| (word.extractLsb' 16 5).setWidth 8) ∧
    RoleRow 7 (.regRd word) word s (.gpr (word.extractLsb' 11 5))
      (0x00#8 ||| (word.extractLsb' 11 5).setWidth 8) ∧
    RoleRow 8 (.regCp0Rd word) word s (.cp0 (word.extractLsb' 11 5))
      (0x40#8 ||| (word.extractLsb' 11 5).setWidth 8)

/-- R122 to R125. The roles that index the floating-point file: role code, descriptor and descriptor
code. -/
def Obligations.FprRolesNameTheirField : Prop :=
  ∀ (word : Word) (s : State),
    RoleRow 11 (.regFd word) word s (.fpr (word.extractLsb' 6 5))
      (0x20#8 ||| (word.extractLsb' 6 5).setWidth 8) ∧
    RoleRow 12 (.regFs word) word s (.fpr (word.extractLsb' 11 5))
      (0x20#8 ||| (word.extractLsb' 11 5).setWidth 8) ∧
    RoleRow 13 (.regFt word) word s (.fpr (word.extractLsb' 16 5))
      (0x20#8 ||| (word.extractLsb' 16 5).setWidth 8) ∧
    RoleRow 14 (.regFr word) word s (.fpr (word.extractLsb' 21 5))
      (0x20#8 ||| (word.extractLsb' 21 5).setWidth 8)

/-- R113, R114, with R112. `HI` names HI; `LO` and the pair role `HI_LO` name LO, never HI and never a
pair. -/
def Obligations.HiLoRoleNamesLo : Prop :=
  ∀ (word : Word) (s : State),
    RoleRow 1 (.regHi word) word s .hi 0x60#8 ∧
    RoleRow 2 (.regLo word) word s .lo 0x61#8 ∧
    RoleRow 3 (.regHiLo word) word s .lo 0x61#8 ∧
    ∀ d, Answers (.regHiLo word) s (.desc d) → d ≠ .hi ∧ Answers (.regLo word) s (.desc d)

/-- The five fixed indices are decisions D6 to D9 of the spec, from general knowledge and not from the
source (log entry 6): GPR 0, GPR 31, CP0 12, CP0 14 and FCR 31. -/
def Obligations.FixedIndexRoles : Prop :=
  ∀ (word : Word) (s : State),
    RoleRow 0 (.regZero word) word s (.gpr 0) 0x00#8 ∧
    RoleRow 4 (.regRa word) word s (.gpr 31) 0x1F#8 ∧
    RoleRow 9 (.regSr word) word s (.cp0 12) 0x4C#8 ∧
    RoleRow 10 (.regEpc word) word s (.cp0 14) 0x4E#8 ∧
    RoleRow 15 (.regFcsr word) word s (.fcr 31) 0x9F#8

/-- R128. A fixed role answers the same descriptor for every word, and `HI_LO` answers as `LO`. -/
def Obligations.FixedRolesIgnoreTheWord : Prop :=
  (∀ form ∈ [Instr.regZero, .regHi, .regLo, .regHiLo, .regRa, .regSr, .regEpc, .regFcsr],
    ∃ d, ∀ (word : Word) (s : State), Answers (form word) s (.desc d)) ∧
  ∃ d, ∀ (word : Word) (s : State),
    Answers (.regHiLo word) s (.desc d) ∧ Answers (.regLo word) s (.desc d)

/-- The locality of the index-bearing roles, which the spec derives (its rule R129): the answer
depends on the five bits of the role's own field alone, and reaches every register of its file. -/
def Obligations.IndexRolesReadOneFieldAndReachTheirFile : Prop :=
  (∀ p ∈ [(Instr.regRs, 21), (.regFr, 21), (.regRt, 16), (.regFt, 16), (.regRd, 11),
      (.regCp0Rd, 11), (.regFs, 11), (.regFd, 6)],
    ∀ (word word' : Word) (s s' : State),
      word.extractLsb' p.2 5 = word'.extractLsb' p.2 5 →
      ∃ d, Answers (p.1 word) s (.desc d) ∧ Answers (p.1 word') s' (.desc d)) ∧
  ∀ (i : RegIndex) (s : State),
    (∃ word, Answers (.regRs word) s (.desc (.gpr i))) ∧
    (∃ word, Answers (.regRt word) s (.desc (.gpr i))) ∧
    (∃ word, Answers (.regRd word) s (.desc (.gpr i))) ∧
    (∃ word, Answers (.regCp0Rd word) s (.desc (.cp0 i))) ∧
    (∃ word, Answers (.regFd word) s (.desc (.fpr i))) ∧
    (∃ word, Answers (.regFs word) s (.desc (.fpr i))) ∧
    (∃ word, Answers (.regFt word) s (.desc (.fpr i))) ∧
    (∃ word, Answers (.regFr word) s (.desc (.fpr i)))

/-- Coincidences and distinctions of spec/95_test_vectors.md section 5.2 (they rest on decisions D6 to
D10, log entry 6): `CP0_RD` meets `SR` and `EPC` exactly at the fixed indices, `RD` meets `RA` exactly
at 31 and `RS` meets `ZERO` exactly at 0, and no floating-point register is `FCSR`. -/
def Obligations.FixedAndIndexedRolesMeetExactlyAtTheFixedIndices : Prop :=
  ∀ (word : Word) (s : State), ∃ rs rd cp0 fs zero ra sr epc fcsr : RegDesc,
    Answers (.regRs word) s (.desc rs) ∧ Answers (.regRd word) s (.desc rd) ∧
    Answers (.regCp0Rd word) s (.desc cp0) ∧ Answers (.regFs word) s (.desc fs) ∧
    Answers (.regZero word) s (.desc zero) ∧ Answers (.regRa word) s (.desc ra) ∧
    Answers (.regSr word) s (.desc sr) ∧ Answers (.regEpc word) s (.desc epc) ∧
    Answers (.regFcsr word) s (.desc fcsr) ∧
    (rs = zero ↔ (word >>> 21) &&& 0x1F#32 = 0#32) ∧
    (rd = ra ↔ (word >>> 11) &&& 0x1F#32 = 31#32) ∧
    (cp0 = sr ↔ (word >>> 11) &&& 0x1F#32 = 12#32) ∧
    (cp0 = epc ↔ (word >>> 11) &&& 0x1F#32 = 14#32) ∧
    fs ≠ fcsr ∧ rd ≠ cp0 ∧ cp0 ≠ fs ∧ rd ≠ fs

/-- The indices are parameters (spec/93_implementation_defined.md U11): other values change the rows of
five roles, whatever the word, and no other row. -/
def Obligations.OnlyFiveRolesDependOnTheIndices : Prop :=
  (∀ (ix : Indices) (word : Word) (role : Role),
    role ∉ [Role.zero, .ra, .sr, .epc, .fcsr] →
    ∀ s : State, Answers (decodeReg role.code word) s
      (.desc (resolveReg ix (decodeFields word) role))) ∧
  ∀ role ∈ [Role.zero, .ra, .sr, .epc, .fcsr], ∀ (word : Word) (s : State),
    ∃ (ix : Indices) (d : RegDesc), Answers (decodeReg role.code word) s (.desc d) ∧
      resolveReg ix (decodeFields word) role ≠ d

/-- The 8-bit descriptor code is the spec's decision D5 (log entry 7): different descriptors have
different codes. -/
def Obligations.DescriptorCodesAreInjective : Prop :=
  ∀ d d' : RegDesc, d.code = d'.code → d = d'

/-! ## The one error, and the outcomes -/

/-- A role code of the sixteen is answered with a descriptor; any other is fatal (R52), whatever the
word and the other operands. Said of a step on a presented query: the select code is log entry 2, the
queue log entry 1, and the form of the fault the spec's decision D14 (log entry 9). -/
def Obligations.RoleOutsideTheSetIsFatal : Prop :=
  ∀ (q : Query) (rest : List Query) (s : State), s.queue = q :: rest → q.select = 23#8 →
    (16 ≤ q.role.toNat → step s = .fault (.contractViolation q.role)) ∧
    (q.role.toNat < 16 → ∃ d t, step s = .next t ∧ t.answers = s.answers ++ [.desc d])

/-- R130. Every operation succeeds on every operand a caller may give it, but register resolution under
a role outside the set, which is the one fatal condition. -/
def Obligations.TwoTiersOfOperations : Prop :=
  ∀ (i : Instr) (s : State), i.WellFormed →
    (keepsContract i = true ∧ ∃ (t : State) (a : Answer), exec i s = .next t ∧
      t.answers = s.answers ++ [a]) ∨
    ∃ (role : RoleCode) (word : Word), i = .regOutOfSet role word ∧
      exec i s = .fault (.contractViolation role)

/-- Spec decision D14 (log entry 9). A step faults exactly when the presented query is `REG` with a
role code outside the set, and the fault carries that code: no instruction word causes it. -/
def Obligations.FaultsComeOnlyFromTheRolePort : Prop :=
  ∀ (s : State) (e : Fault), step s = .fault e ↔
    ∃ (q : Query) (rest : List Query), s.queue = q :: rest ∧ q.select = 23#8 ∧
      roleErr q.role = true ∧ e = .contractViolation q.role

/-- Spec decisions D11 and D13, and the model's own query codes (log entries 2, 5, 8, 12). A step is
refused exactly for a zero mask, a named width that is neither 32 nor 64, a select code of no operation,
or `ADD_CLASS` of a word outside the class. -/
def Obligations.RefusalsAreExactlyTheNamedOnes : Prop :=
  ∀ (s : State) (e : Refusal), step s = .refused e ↔
    ∃ (q : Query) (rest : List Query), s.queue = q :: rest ∧
      ((q.select = 1#8 ∧ q.value = 0#32 ∧ e = .zeroMask) ∨
       ((q.select = 21#8 ∨ q.select = 22#8) ∧ q.width ≠ 0#8 ∧ q.width ≠ 32#8 ∧ q.width ≠ 64#8 ∧
          e = .widthNotAdmitted q.width) ∨
       (24 < q.select.toNat ∧ e = .noSuchOperation q.select) ∨
       (q.select = 24#8 ∧ q.word &&& 0xFC00003F#32 ≠ 0x20#32 ∧ e = .notAddClass q.word))

/-- A caller that keeps its first contract (a role inside the set, R143 a) keeps it in every step, and no
such step ends in the error. The queue is log entry 1, the model's choice. -/
def Obligations.ContractKeepingQueueStaysSo : Prop :=
  ∀ s : State, (∀ q ∈ s.queue, ∀ i, decode q = .instr i → keepsContract i = true) →
    (∀ e, step s ≠ .fault e) ∧
    ∀ t, step s = .next t → ∀ q ∈ t.queue, ∀ i, decode q = .instr i → keepsContract i = true

/-- A caller that keeps its first contract (a role inside the set, R143 a) never sees the error, however
long the run. The queue and the run are log entry 1, the model's choice. -/
def Obligations.ContractKeepingCallerNeverFaults : Prop :=
  ∀ s : State, (∀ q ∈ s.queue, ∀ i, decode q = .instr i → keepsContract i = true) → SafeFrom s

/-! ## No state: independence, repetition, order -/

/-- R10. What an operation answers is a function of its own operands: the same in every state, whatever
was asked before, and so is its error or refusal. -/
def Obligations.AnswersDependOnTheOperandsAlone : Prop :=
  ∀ i : Instr,
    (∃ a, ∀ s, Answers i s a) ∨ (∃ e, ∀ s, exec i s = .fault e) ∨
    (∃ e, ∀ s, exec i s = .refused e)

/-- The spec derives from statelessness (decision D17, its rule R35) that queries commute: asked in
the other order they give the same two answers, in the other order. -/
def Obligations.QueriesCommute : Prop :=
  ∀ (i j : Instr) (s t u : State), exec i s = .next t → exec j t = .next u →
    ∃ (a b : Answer) (t' u' : State), t.answers = s.answers ++ [a] ∧
      u.answers = s.answers ++ [a, b] ∧ exec j s = .next t' ∧ exec i t' = .next u' ∧
      u'.answers = s.answers ++ [b, a]

/-- The spec's decision D16 (its rule R33): asking again gives the same answer and changes nothing but
the record of answers. -/
def Obligations.AskingAgainGivesTheSameAnswer : Prop :=
  ∀ (i : Instr) (s t : State), exec i s = .next t →
    ∃ a, t.answers = s.answers ++ [a] ∧ exec i t = .next { t with answers := t.answers ++ [a] }

/-! ## Frames: the whole next state of every form -/

/-- Log entry 15. The views, `DECODE`, the thirteen fields and `ADD_CLASS` change the `word` port and
add one answer; every other port and every query that waits is as before. -/
def Obligations.WordQueriesChangeOnlyTheWordPort : Prop :=
  (∀ form ∈ [Instr.viewR, .viewI, .viewJ, .viewCp1, .viewWord, .decode, .fieldOpcode, .fieldRs,
      .fieldRt, .fieldRd, .fieldShamt, .fieldFunct, .fieldImm, .fieldJump, .fieldBytes, .fieldFmt,
      .fieldFt, .fieldFs, .fieldFd],
    ∀ (word : Word) (s : State), ∃ a, exec (form word) s =
      .next { s with inputs := { s.inputs with word := word }, answers := s.answers ++ [a] }) ∧
  ∀ (rs rt rd shamt : BitVec 5) (s : State), ∃ a, exec (.addClass rs rt rd shamt) s =
    .next { s with
      inputs := { s.inputs with word := 0#6 ++ rs ++ rt ++ rd ++ shamt ++ 0x20#6 }
      answers := s.answers ++ [a] }

/-- Log entry 15. `IMM_RAW` changes the ports `word` and `raw_tag` and adds one answer. -/
def Obligations.ImmRawChangesOnlyWordAndRawTag : Prop :=
  (∀ p ∈ [(Instr.immRawNone, 0#3), (.immRawShift, 1#3), (.immRawJump, 2#3),
      (.immRawLogical, 3#3), (.immRawArithmetic, 4#3)],
    ∀ (word : Word) (s : State), ∃ a, exec (p.1 word) s =
      .next { s with inputs := { s.inputs with word := word, rawTag := p.2 }
                     answers := s.answers ++ [a] }) ∧
  ∀ (tag : TagCode) (word : Word) (s : State), ∃ a, exec (.immRawOther tag word) s =
    .next { s with inputs := { s.inputs with word := word, rawTag := tag }
                   answers := s.answers ++ [a] }

/-- Log entry 15. `IMM_EXT` changes the ports `ext_tag` and `ext_value` and adds one answer, the same in
every state: it reads no word and changes none. -/
def Obligations.ImmExtChangesOnlyItsTagAndValue : Prop :=
  (∀ p ∈ [(Instr.immExtNone, 0#3), (.immExtShift, 1#3), (.immExtJump, 2#3),
      (.immExtLogical, 3#3), (.immExtArithmetic, 4#3)],
    ∀ (width : Width) (value : Word), ∃ a, ∀ s : State, exec (p.1 width value) s =
      .next { s with inputs := { s.inputs with extTag := p.2, extValue := value }
                     answers := s.answers ++ [a] }) ∧
  ∀ (tag : TagCode) (width : Width) (value : Word), ∃ a, ∀ s : State,
    exec (.immExtOther tag width value) s =
      .next { s with inputs := { s.inputs with extTag := tag, extValue := value }
                     answers := s.answers ++ [a] }

/-- Log entry 15. `IMM` presents the same tag in both places and the raw value to the extension; the
role port and the waiting queries are as before. -/
def Obligations.ComposedImmediateLeavesTheRolePort : Prop :=
  ∀ (tag : TagCode) (width : Width) (word : Word) (s : State), ∃ (a : Answer) (raw : Word),
    Answers (decodeImmRaw tag word) s (.u32 raw) ∧
    exec (.imm tag width word) s =
      .next { s with
        inputs := { word := word, rawTag := tag, extTag := tag, extValue := raw,
                    role := s.inputs.role }
        answers := s.answers ++ [a] }

/-- Log entry 15. `REG` under a role of the set changes the ports `word` and `role` and adds one answer;
no tag, value or waiting query changes. -/
def Obligations.RegChangesOnlyWordAndRole : Prop :=
  ∀ p ∈ [(Instr.regZero, 0#5), (.regHi, 1#5), (.regLo, 2#5), (.regHiLo, 3#5), (.regRa, 4#5),
      (.regRs, 5#5), (.regRt, 6#5), (.regRd, 7#5), (.regCp0Rd, 8#5), (.regSr, 9#5),
      (.regEpc, 10#5), (.regFd, 11#5), (.regFs, 12#5), (.regFt, 13#5), (.regFr, 14#5),
      (.regFcsr, 15#5)],
    ∀ (word : Word) (s : State), ∃ a, exec (p.1 word) s =
      .next { s with inputs := { s.inputs with word := word, role := p.2 }
                     answers := s.answers ++ [a] }

/-- Log entry 15. What a step may change, read off the presented query alone: that query no longer waits,
one answer is added and the earlier ones stay, and only `REG` may change the role port, only `IMM_RAW`
and `IMM` the raw tag, only `IMM_EXT` and `IMM` the extension ports; `EXTRACT` and `IMM_EXT` leave the
word port. -/
def Obligations.AStepChangesOnlyWhatItsQueryDrives : Prop :=
  ∀ (q : Query) (rest : List Query) (s t : State), s.queue = q :: rest → step s = .next t →
    t.queue = rest ∧ (∃ a, t.answers = s.answers ++ [a]) ∧
    (q.select ≠ 23#8 → t.inputs.role = s.inputs.role) ∧
    (q.select ≠ 20#8 → q.select ≠ 22#8 → t.inputs.rawTag = s.inputs.rawTag) ∧
    (q.select ≠ 21#8 → q.select ≠ 22#8 →
      t.inputs.extTag = s.inputs.extTag ∧ t.inputs.extValue = s.inputs.extValue) ∧
    (q.select = 1#8 ∨ q.select = 21#8 → t.inputs.word = s.inputs.word)

/-! ## The ports -/

/-- The port list is the spec's decision D2 (its rule R23); that the ports hold their values after a query
is log entry 15, the model's choice. After a `DECODE`, `FIELD`, `IMM_RAW`, `IMM_EXT`, `IMM` or `REG`
query the output port of that query, computed from the input ports alone, shows the answer; and
`role_err` is asserted exactly for the role codes whose query faults. `EXTRACT`, the views and
`ADD_CLASS` have no output port. -/
def Obligations.OutputPortsShowTheAnswers : Prop :=
  ∀ (word value : Word) (tag : TagCode) (role : RoleCode) (n : Width) (s : State),
    (∃ t, exec (.decode word) s = .next t ∧
      t.answers = s.answers ++ [.fields (portOutputs t.inputs n).fields]) ∧
    (∀ p ∈ [(Instr.fieldOpcode, Fields.opcode), (.fieldRs, Fields.rs), (.fieldRt, Fields.rt),
        (.fieldRd, Fields.rd), (.fieldShamt, Fields.shamt), (.fieldFunct, Fields.funct),
        (.fieldImm, Fields.imm), (.fieldJump, Fields.jump), (.fieldBytes, Fields.bytes),
        (.fieldFmt, Fields.fmt), (.fieldFt, Fields.ft), (.fieldFs, Fields.fs),
        (.fieldFd, Fields.fd)],
      ∃ t, exec (p.1 word) s = .next t ∧
        t.answers = s.answers ++ [.u32 (p.2 (portOutputs t.inputs n).fields)]) ∧
    (∃ t, exec (decodeImmRaw tag word) s = .next t ∧
      t.answers = s.answers ++ [.u32 (portOutputs t.inputs n).immRaw]) ∧
    (∃ t, exec (decodeImmExt tag .w32 value) s = .next t ∧
      t.answers = s.answers ++ [.imm32 (portOutputs t.inputs .w32).immExt]) ∧
    (∃ t, exec (decodeImmExt tag .w64 value) s = .next t ∧
      t.answers = s.answers ++ [.imm64 (portOutputs t.inputs .w64).immExt]) ∧
    (∃ t, exec (.imm tag .w32 word) s = .next t ∧
      t.answers = s.answers ++ [.imm32 (portOutputs t.inputs .w32).immExt] ∧
      (portOutputs t.inputs n).immRaw = t.inputs.extValue) ∧
    (∃ t, exec (.imm tag .w64 word) s = .next t ∧
      t.answers = s.answers ++ [.imm64 (portOutputs t.inputs .w64).immExt]) ∧
    (role.toNat < 16 → ∃ t d, exec (decodeReg role word) s = .next t ∧
      t.answers = s.answers ++ [.desc d] ∧ t.inputs.role = role ∧
      (portOutputs t.inputs n).desc = d.code ∧ (portOutputs t.inputs n).roleErr = false) ∧
    (16 ≤ role.toNat →
      exec (decodeReg role word) s = .fault (.contractViolation role) ∧
      ∀ p : Inputs, p.role = role → (portOutputs p n).roleErr = true)

/-! ## The invariant -/

/-- Every step keeps the invariant: the role port holds a code of the set, and every answer given is
lawful (a bundle determined by its `bytes` field, a descriptor some role produces, a 64-bit immediate
that is zero- or sign-extended). What the role port holds between queries is log entry 15, the model's
choice. -/
def Obligations.EveryStepKeepsTheInvariant : Prop :=
  ∀ s t : State, DecInvariant s → step s = .next t → DecInvariant t

/-- The invariant holds before anything is presented (the values are log entry 4's). -/
def Obligations.ResetMeetsTheInvariant : Prop := DecInvariant State.reset

/-- Log entries 4 and 13 (the spec gives DEC no reset). Before anything is presented every port is
driven with zero, no query waits and no answer has been given, and a step changes nothing. -/
def Obligations.NothingHappensBeforeAQueryIsPresented : Prop :=
  State.reset.inputs = { word := 0, rawTag := 0, extTag := 0, extValue := 0, role := 0 } ∧
  State.reset.queue = [] ∧ State.reset.answers = [] ∧
  ∀ s : State, s.queue = [] → step s = .next s

/-! ## Queries as bits, and the step -/

/-- The 88-bit form is the model's own (log entry 2). Decoding the bits of a well-formed instruction
gives the instruction, with every operand at every value. -/
def Obligations.DecodingAnEncodedInstructionGivesItBack : Prop :=
  ∀ i : Instr, i.WellFormed → decodeBits (encodeBits i) = .instr i

/-- The decoder gives only well-formed instructions, from any 88 bits. -/
def Obligations.DecodedInstructionsAreWellFormed : Prop :=
  ∀ (b : BitVec 88) (i : Instr), decodeBits b = .instr i → i.WellFormed

/-- A few queries written out as bits (role 5, tag 3, width 8, select 8, value 32, word 32). -/
def Obligations.WrittenOutQueriesDecode : Prop :=
  decodeBits 0x00000000000000AEAAE1F9#88 = .instr (.decode 0xAEAAE1F9#32) ∧
  decodeBits 0x00000103E0000000641820#88 = .instr (.extract 0x00641820#32 0x03E00000#32) ∧
  decodeBits 0x04401500008000FFFFFFFF#88 = .instr (.immExtArithmetic .w64 0x8000#32) ∧
  decodeBits 0x2800170000000000641820#88 = .instr (.regRs 0x00641820#32) ∧
  decodeBits 0x8000170000000000641820#88 = .instr (.regOutOfSet 16 0x00641820#32) ∧
  decodeBits 0x0000180000000000641820#88 = .instr (.addClass 3 4 3 0)

/-- A step takes the oldest presented query and runs the operation it decodes to, with that query no
longer waiting. -/
def Obligations.StepRunsTheDecodedQuery : Prop :=
  ∀ (q : Query) (rest : List Query) (i : Instr) (s : State), s.queue = q :: rest →
    decode q = .instr i → step s = exec i { s with queue := rest }

/-! ## Programs: sequences of queries (spec/95_test_vectors.md section 6) -/

/-- Any sequence of well-formed queries that keeps the contract runs to its end, one answer a query, and
each answer is the one its query gives on its own in any state. The queue and the run are log entry 1,
the model's choice. -/
def Obligations.ContractKeepingProgramsRunToTheirEnd : Prop :=
  ∀ (p : List Instr) (s : State), (∀ i ∈ p, i.WellFormed ∧ keepsContract i = true) →
    s.queue = p.map encode →
    ∃ (t : State) (out : List Answer), run p.length s = .next t ∧ t.queue = [] ∧
      t.answers = s.answers ++ out ∧ List.Forall₂ (fun i a => ∀ u, Answers i u a) p out

/-- "Presenting P1's words in reverse gives the same rows in reverse": so it is of every program of
well-formed queries that keeps the contract. The queue and the run are log entry 1, the model's choice. -/
def Obligations.ReversedProgramsGiveReversedAnswers : Prop :=
  ∀ (p : List Instr) (s s' : State), (∀ i ∈ p, i.WellFormed ∧ keepsContract i = true) →
    s.queue = p.map encode → s'.queue = p.reverse.map encode →
    ∃ (t t' : State) (out : List Answer), run p.length s = .next t ∧
      run p.length s' = .next t' ∧ t.answers = s.answers ++ out ∧
      t'.answers = s'.answers ++ out.reverse
end

