-- ==== Sys2Proof/Laws/Decode.lean ====
section
/-! SUPPORT. The query decoder and encoder, part by part. -/

namespace Sys2Proof

/-! ## Well-formedness of the four forms that have a check -/

@[simp] theorem Instr.wellFormed_extract {word mask : Word} :
    (Instr.extract word mask).WellFormed ↔ mask ≠ 0#32 := by
  simp [Instr.WellFormed, Instr.malformed]

@[simp] theorem Instr.wellFormed_immRawOther {tag : TagCode} {word : Word} :
    (Instr.immRawOther tag word).WellFormed ↔ ¬ tag < 5#3 := by
  simp [Instr.WellFormed, Instr.malformed, checkOtherTag]

@[simp] theorem Instr.wellFormed_immExtOther {tag : TagCode} {width : Width} {value : Word} :
    (Instr.immExtOther tag width value).WellFormed ↔ ¬ tag < 5#3 := by
  simp [Instr.WellFormed, Instr.malformed, checkOtherTag]

@[simp] theorem Instr.wellFormed_regOutOfSet {role : RoleCode} {word : Word} :
    (Instr.regOutOfSet role word).WellFormed ↔ ¬ role < 16#5 := by
  simp [Instr.WellFormed, Instr.malformed]

/-! ## The 88 bits, and the checks of the decoder -/

/-- Unpacking the 88 bits of a query gives the query. -/
@[simp] theorem Query.ofBits_toBits (q : Query) : Query.ofBits q.toBits = q := by
  obtain ⟨word, value, select, width, tag, role⟩ := q
  simp only [Query.ofBits, Query.toBits, Query.mk.injEq]
  refine ⟨?_, ?_, ?_, ?_, ?_, ?_⟩ <;>
    simp (disch := omega) only [BitVec.extractLsb'_append_eq_of_le,
      BitVec.extractLsb'_append_eq_of_add_le, Nat.reduceSub, BitVec.extractLsb'_eq_self]

@[simp] theorem Width.ofBits_bits (w : Width) : Width.ofBits (BitVec.ofNat 8 w.bits) = some w := by
  cases w <;> rfl

/-- A named width other than 32 and 64 is not admitted (spec/42_immediate_router.md R107). -/
theorem Width.ofBits_eq_none : ∀ {bits : BitVec 8},
    Width.ofBits bits = none ↔ bits ≠ 0#8 ∧ bits ≠ 32#8 ∧ bits ≠ 64#8 := by decide

/-- The word of an ADD-class instruction matches the row. -/
theorem addClassWord_matches : ∀ rs rt rd shamt : BitVec 5,
    addClassWord rs rt rd shamt &&& addClassMask = addClassMatch := by
  intro rs rt rd shamt
  refine BitVec.eq_of_getLsbD_eq fun k hk => ?_
  simp only [addClassWord, addClassMask, addClassMatch, BitVec.getLsbD_and, BitVec.getLsbD_append]
  interval_cases k <;> simp

/-- The four free fields of an ADD-class word come back. -/
theorem addClassWord_fields (rs rt rd shamt : BitVec 5) :
    (addClassWord rs rt rd shamt).extractLsb' 21 5 = rs ∧
    (addClassWord rs rt rd shamt).extractLsb' 16 5 = rt ∧
    (addClassWord rs rt rd shamt).extractLsb' 11 5 = rd ∧
    (addClassWord rs rt rd shamt).extractLsb' 6 5 = shamt := by
  refine ⟨?_, ?_, ?_, ?_⟩ <;>
    simp (disch := omega) only [addClassWord, BitVec.extractLsb'_append_eq_of_le,
      BitVec.extractLsb'_append_eq_of_add_le, Nat.reduceSub, BitVec.extractLsb'_eq_self]

/-- `ADD_CLASS` of its own word. -/
theorem decodeAddClass_word (rs rt rd shamt : BitVec 5) :
    decodeAddClass (addClassWord rs rt rd shamt) = .instr (.addClass rs rt rd shamt) := by
  obtain ⟨h1, h2, h3, h4⟩ := addClassWord_fields rs rt rd shamt
  simp [decodeAddClass, addClassWord_matches, h1, h2, h3, h4]

/-- An admitted width passes the width check. -/
@[simp] theorem withWidth_bits (w : Width) (form : Width → Instr) :
    withWidth (BitVec.ofNat 8 w.bits) form = .instr (form w) := by
  simp [withWidth]

/-- A tag code that names no tag selects the OTHER form of `IMM_RAW`. -/
theorem decodeImmRaw_other : ∀ {tag : TagCode}, checkOtherTag tag = none →
    ∀ word, decodeImmRaw tag word = .immRawOther tag word := by
  intro tag h word
  have : tag = 5#3 ∨ tag = 6#3 ∨ tag = 7#3 := by revert tag; decide
  obtain rfl | rfl | rfl := this <;> rfl

/-- A tag code that names no tag selects the OTHER form of `IMM_EXT`. -/
theorem decodeImmExt_other : ∀ {tag : TagCode}, checkOtherTag tag = none →
    ∀ width value, decodeImmExt tag width value = .immExtOther tag width value := by
  intro tag h width value
  have : tag = 5#3 ∨ tag = 6#3 ∨ tag = 7#3 := by revert tag; decide
  obtain rfl | rfl | rfl := this <;> rfl

/-- A role code of 16 or more selects the OUT_OF_SET form of `REG`. -/
theorem decodeReg_outOfSet : ∀ {role : RoleCode}, ¬ role < 16#5 →
    ∀ word, decodeReg role word = .regOutOfSet role word := by
  intro role h word
  have : Role.ofCode role = none := by revert role; decide
  simp [decodeReg, this]

/-- Every role's code selects the form of that role and no OUT_OF_SET. -/
theorem decodeReg_code_ne_outOfSet (r : Role) (word : Word) (role : RoleCode) (word' : Word) :
    decodeReg r.code word ≠ .regOutOfSet role word' := by
  cases r <;> nofun

end Sys2Proof
end

