-- ==== Sys2Proof/Laws/State.lean ====
section
/-! SUPPORT. One lemma per field of the state per update, so that no proof unfolds a record update. -/

namespace Sys2Proof.Machine

variable (s : State) (word value : Word) (tag : TagCode) (role : RoleCode) (q : Query)

/-! ## driveWord -/

@[simp] theorem State.driveWord_word : (s.driveWord word).inputs.word = word := rfl
@[simp] theorem State.driveWord_rawTag : (s.driveWord word).inputs.rawTag = s.inputs.rawTag := rfl
@[simp] theorem State.driveWord_extTag : (s.driveWord word).inputs.extTag = s.inputs.extTag := rfl
@[simp] theorem State.driveWord_extValue :
    (s.driveWord word).inputs.extValue = s.inputs.extValue := rfl
@[simp] theorem State.driveWord_role : (s.driveWord word).inputs.role = s.inputs.role := rfl
@[simp] theorem State.driveWord_queue : (s.driveWord word).queue = s.queue := rfl
@[simp] theorem State.driveWord_answers : (s.driveWord word).answers = s.answers := rfl

/-! ## driveRawTag -/

@[simp] theorem State.driveRawTag_word : (s.driveRawTag tag).inputs.word = s.inputs.word := rfl
@[simp] theorem State.driveRawTag_rawTag : (s.driveRawTag tag).inputs.rawTag = tag := rfl
@[simp] theorem State.driveRawTag_extTag :
    (s.driveRawTag tag).inputs.extTag = s.inputs.extTag := rfl
@[simp] theorem State.driveRawTag_extValue :
    (s.driveRawTag tag).inputs.extValue = s.inputs.extValue := rfl
@[simp] theorem State.driveRawTag_role : (s.driveRawTag tag).inputs.role = s.inputs.role := rfl
@[simp] theorem State.driveRawTag_queue : (s.driveRawTag tag).queue = s.queue := rfl
@[simp] theorem State.driveRawTag_answers : (s.driveRawTag tag).answers = s.answers := rfl

/-! ## driveExt -/

@[simp] theorem State.driveExt_word : (s.driveExt tag value).inputs.word = s.inputs.word := rfl
@[simp] theorem State.driveExt_rawTag :
    (s.driveExt tag value).inputs.rawTag = s.inputs.rawTag := rfl
@[simp] theorem State.driveExt_extTag : (s.driveExt tag value).inputs.extTag = tag := rfl
@[simp] theorem State.driveExt_extValue : (s.driveExt tag value).inputs.extValue = value := rfl
@[simp] theorem State.driveExt_role : (s.driveExt tag value).inputs.role = s.inputs.role := rfl
@[simp] theorem State.driveExt_queue : (s.driveExt tag value).queue = s.queue := rfl
@[simp] theorem State.driveExt_answers : (s.driveExt tag value).answers = s.answers := rfl

/-! ## driveRole -/

@[simp] theorem State.driveRole_word : (s.driveRole role).inputs.word = s.inputs.word := rfl
@[simp] theorem State.driveRole_rawTag : (s.driveRole role).inputs.rawTag = s.inputs.rawTag := rfl
@[simp] theorem State.driveRole_extTag : (s.driveRole role).inputs.extTag = s.inputs.extTag := rfl
@[simp] theorem State.driveRole_extValue :
    (s.driveRole role).inputs.extValue = s.inputs.extValue := rfl
@[simp] theorem State.driveRole_role : (s.driveRole role).inputs.role = role := rfl
@[simp] theorem State.driveRole_queue : (s.driveRole role).queue = s.queue := rfl
@[simp] theorem State.driveRole_answers : (s.driveRole role).answers = s.answers := rfl

/-! ## present -/

@[simp] theorem State.present_queue : (s.present q).queue = q :: s.queue := rfl
@[simp] theorem State.present_inputs : (s.present q).inputs = s.inputs := rfl
@[simp] theorem State.present_answers : (s.present q).answers = s.answers := rfl

end Sys2Proof.Machine
end

