-- ==== Sys2Proof/Laws/Operands.lean ====
section
/-! SUPPORT. What the functions of DEC compute, bit by bit. -/

namespace Sys2Proof.Machine

/-! ## ctz and EXTRACT -/

/-- A scan that meets a set bit stops at the least one. -/
theorem scanSetBit_spec (m : Word) :
    ∀ fuel i, (∃ k, i ≤ k ∧ k < i + fuel ∧ m.getLsbD k = true) →
      i ≤ scanSetBit m fuel i ∧ scanSetBit m fuel i < i + fuel ∧
      m.getLsbD (scanSetBit m fuel i) = true ∧
      ∀ j, i ≤ j → j < scanSetBit m fuel i → m.getLsbD j = false
  | 0, i, ⟨k, h1, h2, _⟩ => by omega
  | fuel + 1, i, ⟨k, h1, h2, h3⟩ => by
    unfold scanSetBit
    split
    · case isTrue hi => exact ⟨le_refl i, by omega, hi, fun j h1 h2 => by omega⟩
    · case isFalse hi =>
      have hne : k ≠ i := fun e => hi (e ▸ h3)
      obtain ⟨a, b, c, d⟩ := scanSetBit_spec m fuel (i + 1) ⟨k, by omega, by omega, h3⟩
      refine ⟨by omega, by omega, c, fun j hj hlt => ?_⟩
      by_cases e : j = i
      · subst e; simpa using hi
      · exact d j (by omega) hlt

/-- A word that is not zero has a set bit. -/
theorem exists_set_bit {m : Word} (h : m ≠ 0#32) : ∃ k, k < 32 ∧ m.getLsbD k = true := by
  by_contra hn
  push Not at hn
  refine h (BitVec.eq_of_getLsbD_eq fun k hk => ?_)
  simpa using hn k hk

/-- `ctz` is the least set bit (spec/40_bitfield_extractor.md R61). -/
theorem ctz_spec (m : Word) (h : m ≠ 0#32) :
    ctz m h < 32 ∧ m.getLsbD (ctz m h) = true ∧ ∀ j < ctz m h, m.getLsbD j = false := by
  obtain ⟨k, hk, hm⟩ := exists_set_bit h
  obtain ⟨-, b, c, d⟩ := scanSetBit_spec m 32 0 ⟨k, by omega, by omega, hm⟩
  exact ⟨by unfold ctz; omega, c, fun j hj => d j (by omega) hj⟩

/-- A bit of an extracted field. -/
theorem getLsbD_extract (word mask : Word) (h : mask ≠ 0#32) (k : Nat) :
    (extract word mask h).getLsbD k =
      (word.getLsbD (ctz mask h + k) && mask.getLsbD (ctz mask h + k)) := by
  simp [extract]

/-! ## The field table -/

/-- The lowest set bit of a field's mask is the field's offset. -/
theorem ctz_fieldMask (n : FieldName) : ctz (fieldMask n) (fieldMask_ne_zero n) = fieldOffset n := by
  cases n <;> decide

/-- A field's mask has exactly the bits of the field. -/
theorem getLsbD_fieldMask (n : FieldName) (k : Nat) :
    (fieldMask n).getLsbD (fieldOffset n + k) = decide (k < fieldWidth n) := by
  have h32 : fieldOffset n + fieldWidth n ≤ 32 := by cases n <;> decide
  simp only [fieldMask, BitVec.getLsbD_shiftLeft, BitVec.getLsbD_ofNat, Nat.testBit_two_pow_sub_one]
  by_cases hk : k < fieldWidth n
  · simp [hk]; omega
  · simp [hk]

/-- A bit of a field (spec/30_encoding.md R41). -/
theorem getLsbD_fieldValue (n : FieldName) (word : Word) (k : Nat) :
    (fieldValue n word).getLsbD k = (decide (k < fieldWidth n) && word.getLsbD (fieldOffset n + k)) := by
  rw [fieldValue, getLsbD_extract, ctz_fieldMask, getLsbD_fieldMask, Bool.and_comm]

/-- A field is the bits of the word in its range, right-justified. -/
theorem fieldValue_eq_extractLsb' (n : FieldName) (word : Word) :
    fieldValue n word = (word.extractLsb' (fieldOffset n) (fieldWidth n)).setWidth 32 := by
  refine BitVec.eq_of_getLsbD_eq fun k hk => ?_
  rw [getLsbD_fieldValue]
  simp [hk]

/-- A field, cut back to its own width, is the bit range itself. -/
theorem setWidth_fieldValue (n : FieldName) (word : Word) {w : Nat} (hw : w = fieldWidth n) :
    (fieldValue n word).setWidth w = word.extractLsb' (fieldOffset n) w := by
  subst hw
  refine BitVec.eq_of_getLsbD_eq fun k hk => ?_
  rw [BitVec.getLsbD_setWidth, getLsbD_fieldValue]
  simp [hk]

/-- A field is below two to its width (spec/10_state.md R12). -/
theorem fieldValue_lt (n : FieldName) (word : Word) :
    (fieldValue n word).toNat < 2 ^ fieldWidth n := by
  have h32 : fieldWidth n ≤ 32 := by cases n <;> decide
  rw [fieldValue_eq_extractLsb', BitVec.toNat_setWidth]
  exact lt_of_le_of_lt (Nat.mod_le _ _) (word.extractLsb' (fieldOffset n) (fieldWidth n)).isLt

/-- A field as shift and mask, for a mask of as many ones as the field is wide. -/
theorem fieldValue_eq_shift_and (n : FieldName) (word m : Word)
    (hm : ∀ k < 32, m.getLsbD k = decide (k < fieldWidth n)) :
    fieldValue n word = (word >>> fieldOffset n) &&& m := by
  refine BitVec.eq_of_getLsbD_eq fun k hk => ?_
  rw [getLsbD_fieldValue, BitVec.getLsbD_and, BitVec.getLsbD_ushiftRight, hm k hk, Bool.and_comm]

/-- The top field needs no mask. -/
theorem fieldValue_opcode (word : Word) : fieldValue .opcode word = word >>> 26 := by
  refine BitVec.eq_of_getLsbD_eq fun k hk => ?_
  rw [getLsbD_fieldValue, BitVec.getLsbD_ushiftRight]
  by_cases h : k < 6
  · simp [fieldWidth, fieldOffset, h]
  · simp [fieldWidth, fieldOffset, h, BitVec.getLsbD_of_ge word (26 + k) (by omega)]

/-- The whole word is its own field. -/
theorem fieldValue_bytes (word : Word) : fieldValue .bytes word = word := by
  refine BitVec.eq_of_getLsbD_eq fun k hk => ?_
  rw [getLsbD_fieldValue]
  simp [fieldWidth, fieldOffset, hk]

/-! ## Sign extension -/

/-- A bit of a sign-extended value: its own bit below 16, bit 15 above. -/
theorem getLsbD_signExtend16 {w : Nat} (value : Word) {k : Nat} (hk : k < w) :
    (signExtend16 w value).getLsbD k = value.getLsbD (if k < 16 then k else 15) := by
  simp only [signExtend16, BitVec.getLsbD_signExtend, hk, decide_true, Bool.true_and]
  split
  · simp [*]
  · simp [BitVec.msb_eq_getLsbD_last]

/-- Under a zero-extending tag the value is the same unsigned number at every width that holds it
(spec/42_immediate_router.md R105). -/
theorem toNat_extendTo {n : Nat} {tag : Tag} (h : tag ≠ .arithmetic) {value : Word}
    (hv : value.toNat < 2 ^ n) : (extendTo n tag value).toNat = value.toNat := by
  cases tag <;> simp_all [extendTo, Nat.mod_eq_of_lt]

/-- An extended immediate at width 32. -/
theorem immExtAnswer_w32 (tag : Tag) (value : Word) :
    immExtAnswer .w32 tag value = .imm32 (extendTo 32 tag value) := rfl

/-- An extended immediate at width 64. -/
theorem immExtAnswer_w64 (tag : Tag) (value : Word) :
    immExtAnswer .w64 tag value = .imm64 (extendTo 64 tag value) := rfl

/-! ## Register indices -/

@[simp] theorem regIndex_rs (word : Word) :
    regIndex (decodeFields word).rs = word.extractLsb' 21 5 := setWidth_fieldValue .rs word rfl
@[simp] theorem regIndex_rt (word : Word) :
    regIndex (decodeFields word).rt = word.extractLsb' 16 5 := setWidth_fieldValue .rt word rfl
@[simp] theorem regIndex_rd (word : Word) :
    regIndex (decodeFields word).rd = word.extractLsb' 11 5 := setWidth_fieldValue .rd word rfl
@[simp] theorem regIndex_fd (word : Word) :
    regIndex (decodeFields word).fd = word.extractLsb' 6 5 := setWidth_fieldValue .fd word rfl
@[simp] theorem regIndex_fs (word : Word) :
    regIndex (decodeFields word).fs = word.extractLsb' 11 5 := setWidth_fieldValue .fs word rfl
@[simp] theorem regIndex_ft (word : Word) :
    regIndex (decodeFields word).ft = word.extractLsb' 16 5 := setWidth_fieldValue .ft word rfl
@[simp] theorem regIndex_fmt (word : Word) :
    regIndex (decodeFields word).fmt = word.extractLsb' 21 5 := setWidth_fieldValue .fmt word rfl

/-! ## The code spaces -/

@[simp] theorem Tag.ofCode_code (t : Tag) : Tag.ofCode t.code = t := by cases t <;> rfl
@[simp] theorem Role.ofCode_code (r : Role) : Role.ofCode r.code = some r := by cases r <;> rfl

/-- A code that names no tag behaves as `Arithmetic` (spec/10_state.md R24). -/
theorem Tag.ofCode_other : ∀ {c : TagCode}, ¬ c < 5#3 → Tag.ofCode c = .arithmetic := by decide

/-- A code of the mapper's closed set is below 16, and no other is (spec/10_state.md R25). -/
theorem Role.ofCode_eq_none : ∀ {c : RoleCode}, Role.ofCode c = none ↔ roleErr c = true := by
  decide

/-- No role of the closed set asserts `role_err`. -/
@[simp] theorem roleErr_code (r : Role) : roleErr r.code = false := by cases r <;> rfl

end Sys2Proof.Machine
end

