-- ==== Sys2Proof/Laws/Exec.lean ====
section
/-! SUPPORT. What the shared operations of the machine can do, each said once. -/

namespace Sys2Proof.Machine

/-- A query that completes adds one answer and changes nothing else. -/
theorem answer_eq_next {a : Answer} {s t : State} :
    answer a s = .next t ↔ t = { s with answers := s.answers ++ [a] } := by
  simp [answer, eq_comm]

/-- The contract violation never completes. -/
theorem raiseContractViolation_ne_next (role : RoleCode) (t : State) :
    raiseContractViolation role ≠ .next t := nofun

theorem askWord_next (a : Word → Answer) (word : Word) (s : State) :
    askWord a word s = .next { s.driveWord word with answers := s.answers ++ [a word] } := rfl

theorem askField_next (n : FieldName) (word : Word) (s : State) :
    askField n word s =
      .next { s.driveWord word with answers := s.answers ++ [.u32 (fieldValue n word)] } := rfl

theorem askImmRaw_next (tag : TagCode) (word : Word) (s : State) :
    askImmRaw tag word s =
      .next { (s.driveWord word).driveRawTag tag with
        answers := s.answers ++ [.u32 (immRaw (decodeFields word) (Tag.ofCode tag))] } := rfl

theorem askImmExt_next (tag : TagCode) (width : Width) (value : Word) (s : State) :
    askImmExt tag width value s =
      .next { s.driveExt tag value with
        answers := s.answers ++ [immExtAnswer width (Tag.ofCode tag) value] } := rfl

theorem askReg_next (role : Role) (word : Word) (s : State) :
    askReg role word s =
      .next { (s.driveWord word).driveRole role.code with
        answers := s.answers ++ [.desc (resolveReg fixedIndices (decodeFields word) role)] } := rfl

/-- `EXTRACT` under a mask that is not zero. -/
theorem execExtract_next (word mask : Word) (s : State) (h : mask ≠ 0#32) :
    execExtract word mask s =
      .next { s with answers := s.answers ++ [.u32 (extract word mask h)] } := by
  simp [execExtract, h, answer]

/-- A step with a query presented runs it. -/
theorem step_of_queue_cons {s : State} {q : Query} {rest : List Query} (h : s.queue = q :: rest) :
    step s = runQuery q { s with queue := rest } := by
  simp [step, fetch, h]

/-- A step with nothing presented. -/
theorem step_of_queue_nil {s : State} (h : s.queue = []) : step s = .next s := by
  simp [step, fetch, idle, h]

/-- Running a query that decodes. -/
theorem runQuery_of_instr {q : Query} {i : Instr} (h : decode q = .instr i) (s : State) :
    runQuery q s = exec i s := by
  simp [runQuery, h]

/-- Running a query that is none of DEC's. -/
theorem runQuery_of_reject {q : Query} {r : Reject} (h : decode q = .reject r) (s : State) :
    runQuery q s = .refused (refusalOf r) := by
  simp [runQuery, h]

/-- What a step can do: nothing, with nothing presented; else it runs the oldest query. -/
theorem step_cases (s : State) :
    (s.queue = [] ∧ step s = .next s) ∨
    ∃ q rest, s.queue = q :: rest ∧ step s = runQuery q { s with queue := rest } := by
  cases h : s.queue with
  | nil => exact .inl ⟨rfl, step_of_queue_nil h⟩
  | cons q rest => exact .inr ⟨q, rest, rfl, step_of_queue_cons h⟩

/-! ## What a meaning can do -/

/-- Only the form outside the closed set faults. -/
theorem exec_eq_fault {i : Instr} {s : State} {e : Fault} (h : exec i s = .fault e) :
    ∃ role word, i = .regOutOfSet role word ∧ e = .contractViolation role := by
  cases i
  case regOutOfSet role word => cases h; exact ⟨role, word, rfl, rfl⟩
  case extract word mask => simp only [exec, execExtract] at h; split at h <;> cases h
  all_goals cases h

/-- Only `EXTRACT` with mask 0 is refused by its meaning. -/
theorem exec_eq_refused {i : Instr} {s : State} {e : Refusal} (h : exec i s = .refused e) :
    ∃ word, i = .extract word 0#32 ∧ e = .zeroMask := by
  cases i
  case regOutOfSet role word => cases h
  case extract word mask =>
    simp only [exec, execExtract] at h
    split at h
    · case isTrue h0 => cases h; exact ⟨word, by rw [h0], rfl⟩
    · cases h
  all_goals cases h

/-- A query that completes leaves the queries that wait. -/
theorem exec_next_queue {i : Instr} {s t : State} (h : exec i s = .next t) : t.queue = s.queue := by
  cases i
  case regOutOfSet role word => cases h
  case extract word mask =>
    simp only [exec, execExtract] at h
    split at h
    · cases h
    · cases h; rfl
  all_goals cases h; rfl

/-! ## Runs -/

theorem run_zero (s : State) : run 0 s = .next s := rfl

theorem run_succ_of_next {s t : State} (h : step s = .next t) (k : Nat) :
    run (k + 1) s = run k t := by
  simp only [run, Host.Core.run]
  rw [show Sys2Proof.core.step s = .next t from h]

theorem run_succ_of_fault {s : State} {e : Fault} (h : step s = .fault e) (k : Nat) :
    run (k + 1) s = .fault e := by
  simp only [run, Host.Core.run]
  rw [show Sys2Proof.core.step s = .fault e from h]
  rfl

theorem run_succ_of_refused {s : State} {e : Refusal} (h : step s = .refused e) (k : Nat) :
    run (k + 1) s = .refused e := by
  simp only [run, Host.Core.run]
  rw [show Sys2Proof.core.step s = .refused e from h]
  rfl

end Sys2Proof.Machine
end

