-- ==== Sys2Proof/Laws/PerInstr.lean ====
section
/-! SUPPORT. Statements about every instruction as syntax, proved one constructor at a time.

Family RoundTrip: decoding the query an instruction is encoded as gives the instruction back. -/

namespace Sys2Proof.Laws.RoundTrip

/-- A well-formed instruction survives encoding and decoding. -/
def Statement (i : Instr) : Prop := i.WellFormed → decode (encode i) = .instr i

theorem viewR (word : Word) : Statement (.viewR word) := fun _ => rfl
theorem viewI (word : Word) : Statement (.viewI word) := fun _ => rfl
theorem viewJ (word : Word) : Statement (.viewJ word) := fun _ => rfl
theorem viewCp1 (word : Word) : Statement (.viewCp1 word) := fun _ => rfl
theorem viewWord (word : Word) : Statement (.viewWord word) := fun _ => rfl
theorem extract (word : Word) (mask : Word) : Statement (.extract word mask) := by
  intro h
  have h0 : mask ≠ 0#32 := Instr.wellFormed_extract.mp h
  simp [encode, wordQuery, decode, decodeExtract, h0]
theorem decode (word : Word) : Statement (.decode word) := fun _ => rfl
theorem fieldOpcode (word : Word) : Statement (.fieldOpcode word) := fun _ => rfl
theorem fieldRs (word : Word) : Statement (.fieldRs word) := fun _ => rfl
theorem fieldRt (word : Word) : Statement (.fieldRt word) := fun _ => rfl
theorem fieldRd (word : Word) : Statement (.fieldRd word) := fun _ => rfl
theorem fieldShamt (word : Word) : Statement (.fieldShamt word) := fun _ => rfl
theorem fieldFunct (word : Word) : Statement (.fieldFunct word) := fun _ => rfl
theorem fieldImm (word : Word) : Statement (.fieldImm word) := fun _ => rfl
theorem fieldJump (word : Word) : Statement (.fieldJump word) := fun _ => rfl
theorem fieldBytes (word : Word) : Statement (.fieldBytes word) := fun _ => rfl
theorem fieldFmt (word : Word) : Statement (.fieldFmt word) := fun _ => rfl
theorem fieldFt (word : Word) : Statement (.fieldFt word) := fun _ => rfl
theorem fieldFs (word : Word) : Statement (.fieldFs word) := fun _ => rfl
theorem fieldFd (word : Word) : Statement (.fieldFd word) := fun _ => rfl
theorem immRawNone (word : Word) : Statement (.immRawNone word) := fun _ => rfl
theorem immRawShift (word : Word) : Statement (.immRawShift word) := fun _ => rfl
theorem immRawJump (word : Word) : Statement (.immRawJump word) := fun _ => rfl
theorem immRawLogical (word : Word) : Statement (.immRawLogical word) := fun _ => rfl
theorem immRawArithmetic (word : Word) : Statement (.immRawArithmetic word) := fun _ => rfl
theorem immRawOther (tag : TagCode) (word : Word) : Statement (.immRawOther tag word) := fun h =>
  congrArg Decoded.instr (decodeImmRaw_other h word)
theorem immExtNone (width : Width) (value : Word) : Statement (.immExtNone width value) := fun _ =>
  withWidth_bits width _
theorem immExtShift (width : Width) (value : Word) : Statement (.immExtShift width value) := fun _ =>
  withWidth_bits width _
theorem immExtJump (width : Width) (value : Word) : Statement (.immExtJump width value) := fun _ =>
  withWidth_bits width _
theorem immExtLogical (width : Width) (value : Word) : Statement (.immExtLogical width value) := fun _ =>
  withWidth_bits width _
theorem immExtArithmetic (width : Width) (value : Word) : Statement (.immExtArithmetic width value) := fun _ =>
  withWidth_bits width _
theorem immExtOther (tag : TagCode) (width : Width) (value : Word) : Statement (.immExtOther tag width value) := fun h =>
  (withWidth_bits width _).trans (congrArg Decoded.instr (decodeImmExt_other h width value))
theorem imm (tag : TagCode) (width : Width) (word : Word) : Statement (.imm tag width word) := fun _ =>
  withWidth_bits width _
theorem regZero (word : Word) : Statement (.regZero word) := fun _ => rfl
theorem regHi (word : Word) : Statement (.regHi word) := fun _ => rfl
theorem regLo (word : Word) : Statement (.regLo word) := fun _ => rfl
theorem regHiLo (word : Word) : Statement (.regHiLo word) := fun _ => rfl
theorem regRa (word : Word) : Statement (.regRa word) := fun _ => rfl
theorem regRs (word : Word) : Statement (.regRs word) := fun _ => rfl
theorem regRt (word : Word) : Statement (.regRt word) := fun _ => rfl
theorem regRd (word : Word) : Statement (.regRd word) := fun _ => rfl
theorem regCp0Rd (word : Word) : Statement (.regCp0Rd word) := fun _ => rfl
theorem regSr (word : Word) : Statement (.regSr word) := fun _ => rfl
theorem regEpc (word : Word) : Statement (.regEpc word) := fun _ => rfl
theorem regFd (word : Word) : Statement (.regFd word) := fun _ => rfl
theorem regFs (word : Word) : Statement (.regFs word) := fun _ => rfl
theorem regFt (word : Word) : Statement (.regFt word) := fun _ => rfl
theorem regFr (word : Word) : Statement (.regFr word) := fun _ => rfl
theorem regFcsr (word : Word) : Statement (.regFcsr word) := fun _ => rfl
theorem regOutOfSet (role : RoleCode) (word : Word) : Statement (.regOutOfSet role word) := by
  intro h
  have h16 : ¬ role < 16#5 := Instr.wellFormed_regOutOfSet.mp h
  exact congrArg Decoded.instr (decodeReg_outOfSet h16 word)
theorem addClass (rs : BitVec 5) (rt : BitVec 5) (rd : BitVec 5) (shamt : BitVec 5) : Statement (.addClass rs rt rd shamt) := fun _ =>
  decodeAddClass_word rs rt rd shamt

end Sys2Proof.Laws.RoundTrip
end

