-- ==== Sys2Proof/Tests/Slice0.lean ====
section
/-! SUPPORT. Tests of the model. The expected values are those of spec/95_test_vectors.md (its vector is
named at each test) or of the rule cited; none is the model's own answer copied back. -/

namespace Sys2Proof.Tests

open Sys2Proof.Machine Sys2Proof.Claims

/-- The source's worked word (vector S1), the spec's word B and its coprocessor-1 word F. -/
def wordA : Word := 0x00641820#32
def wordB : Word := 0xAEAAE1F9#32
def wordF : Word := 0x46062100#32

/-- The newest answer of an outcome that completes. -/
def answered : Host.Outcome State Fault Refusal → Option Answer
  | .next t => t.answers.getLast?
  | .fault _ => none
  | .refused _ => none

/-- The fault of an outcome. -/
def faulted : Host.Outcome State Fault Refusal → Option Fault
  | .fault e => some e
  | _ => none

/-- The refusal of an outcome. -/
def refused : Host.Outcome State Fault Refusal → Option Refusal
  | .refused e => some e
  | _ => none

/-- What a query answers when it is the first one asked. -/
def ask (i : Instr) : Option Answer := answered (exec i State.reset)

/-- The first state with some queries presented. -/
def presenting (qs : List Query) : State := { State.reset with queue := qs }

/-! ## WellFormed: each check refuses an ill-formed term, and accepts its nearest neighbour -/

theorem test_wellFormed_zero_mask :
    ¬ (Instr.extract wordA 0#32).WellFormed ∧ (Instr.extract wordA 1#32).WellFormed := by decide

theorem test_wellFormed_named_tag_raw :
    ¬ (Instr.immRawOther 4 wordA).WellFormed ∧ (Instr.immRawOther 5 wordA).WellFormed := by decide

theorem test_wellFormed_named_tag_ext :
    ¬ (Instr.immExtOther 0 .w32 wordA).WellFormed ∧ (Instr.immExtOther 7 .w64 wordA).WellFormed := by
  decide

theorem test_wellFormed_named_role :
    ¬ (Instr.regOutOfSet 15 wordA).WellFormed ∧ (Instr.regOutOfSet 16 wordA).WellFormed := by decide

/-! ## Decoding: every constructor's query written out as bits (role 5, tag 3, width 8, select 8,
value 32, word 32: log entry 2; tag and role codes R24, R25) -/

theorem test_decode_views :
    [0x00000200000000AEAAE1F9#88,
      0x00000300000000AEAAE1F9#88,
      0x00000400000000AEAAE1F9#88,
      0x00000500000000AEAAE1F9#88,
      0x00000600000000AEAAE1F9#88].map decodeBits =
    [.instr (.viewR 0xAEAAE1F9#32),
      .instr (.viewI 0xAEAAE1F9#32),
      .instr (.viewJ 0xAEAAE1F9#32),
      .instr (.viewCp1 0xAEAAE1F9#32),
      .instr (.viewWord 0xAEAAE1F9#32)] := by decide

theorem test_decode_decode_and_extract :
    [0x00000000000000AEAAE1F9#88,
      0x0000010000F0F0ABCD1234#88].map decodeBits =
    [.instr (.decode 0xAEAAE1F9#32),
      .instr (.extract 0xABCD1234#32 0x0000F0F0#32)] := by decide

theorem test_decode_fields :
    [0x00000700000000AEAAE1F9#88,
      0x00000800000000AEAAE1F9#88,
      0x00000900000000AEAAE1F9#88,
      0x00000A00000000AEAAE1F9#88,
      0x00000B00000000AEAAE1F9#88,
      0x00000C00000000AEAAE1F9#88,
      0x00000D00000000AEAAE1F9#88,
      0x00000E00000000AEAAE1F9#88,
      0x00000F00000000AEAAE1F9#88,
      0x00001000000000AEAAE1F9#88,
      0x00001100000000AEAAE1F9#88,
      0x00001200000000AEAAE1F9#88,
      0x00001300000000AEAAE1F9#88].map decodeBits =
    [.instr (.fieldOpcode 0xAEAAE1F9#32),
      .instr (.fieldRs 0xAEAAE1F9#32),
      .instr (.fieldRt 0xAEAAE1F9#32),
      .instr (.fieldRd 0xAEAAE1F9#32),
      .instr (.fieldShamt 0xAEAAE1F9#32),
      .instr (.fieldFunct 0xAEAAE1F9#32),
      .instr (.fieldImm 0xAEAAE1F9#32),
      .instr (.fieldJump 0xAEAAE1F9#32),
      .instr (.fieldBytes 0xAEAAE1F9#32),
      .instr (.fieldFmt 0xAEAAE1F9#32),
      .instr (.fieldFt 0xAEAAE1F9#32),
      .instr (.fieldFs 0xAEAAE1F9#32),
      .instr (.fieldFd 0xAEAAE1F9#32)] := by decide

theorem test_decode_immRaw :
    [0x00001400000000AEAAE1F9#88,
      0x01001400000000AEAAE1F9#88,
      0x02001400000000AEAAE1F9#88,
      0x03001400000000AEAAE1F9#88,
      0x04001400000000AEAAE1F9#88,
      0x05001400000000AEAAE1F9#88,
      0x07001400000000AEAAE1F9#88].map decodeBits =
    [.instr (.immRawNone 0xAEAAE1F9#32),
      .instr (.immRawShift 0xAEAAE1F9#32),
      .instr (.immRawJump 0xAEAAE1F9#32),
      .instr (.immRawLogical 0xAEAAE1F9#32),
      .instr (.immRawArithmetic 0xAEAAE1F9#32),
      .instr (.immRawOther 5 0xAEAAE1F9#32),
      .instr (.immRawOther 7 0xAEAAE1F9#32)] := by decide

theorem test_decode_immExt :
    [0x0020150000800000000000#88,
      0x0140150000800000000000#88,
      0x0220150000800000000000#88,
      0x0340150000800000000000#88,
      0x0420150000800000000000#88,
      0x0620150000800000000000#88].map decodeBits =
    [.instr (.immExtNone .w32 0x00008000#32),
      .instr (.immExtShift .w64 0x00008000#32),
      .instr (.immExtJump .w32 0x00008000#32),
      .instr (.immExtLogical .w64 0x00008000#32),
      .instr (.immExtArithmetic .w32 0x00008000#32),
      .instr (.immExtOther 6 .w32 0x00008000#32)] := by decide

theorem test_decode_imm :
    [0x02201600000000AEAAE1F9#88,
      0x07401600000000AEAAE1F9#88].map decodeBits =
    [.instr (.imm 2 .w32 0xAEAAE1F9#32),
      .instr (.imm 7 .w64 0xAEAAE1F9#32)] := by decide

theorem test_decode_reg :
    [0x0000170000000000641820#88,
      0x0800170000000000641820#88,
      0x1000170000000000641820#88,
      0x1800170000000000641820#88,
      0x2000170000000000641820#88,
      0x2800170000000000641820#88,
      0x3000170000000000641820#88,
      0x3800170000000000641820#88,
      0x4000170000000000641820#88,
      0x4800170000000000641820#88,
      0x5000170000000000641820#88,
      0x5800170000000000641820#88,
      0x6000170000000000641820#88,
      0x6800170000000000641820#88,
      0x7000170000000000641820#88,
      0x7800170000000000641820#88,
      0x8000170000000000641820#88,
      0xF800170000000000641820#88].map decodeBits =
    [.instr (.regZero 0x00641820#32),
      .instr (.regHi 0x00641820#32),
      .instr (.regLo 0x00641820#32),
      .instr (.regHiLo 0x00641820#32),
      .instr (.regRa 0x00641820#32),
      .instr (.regRs 0x00641820#32),
      .instr (.regRt 0x00641820#32),
      .instr (.regRd 0x00641820#32),
      .instr (.regCp0Rd 0x00641820#32),
      .instr (.regSr 0x00641820#32),
      .instr (.regEpc 0x00641820#32),
      .instr (.regFd 0x00641820#32),
      .instr (.regFs 0x00641820#32),
      .instr (.regFt 0x00641820#32),
      .instr (.regFr 0x00641820#32),
      .instr (.regFcsr 0x00641820#32),
      .instr (.regOutOfSet 16 0x00641820#32),
      .instr (.regOutOfSet 31 0x00641820#32)] := by decide

theorem test_decode_addClass :
    [0x0000180000000000641820#88,
      0x0000180000000000640A20#88].map decodeBits =
    [.instr (.addClass 3 4 3 0),
      .instr (.addClass 3 4 1 8)] := by decide

theorem test_decode_rejects :
    [0x0000010000000000641820#88, 0x0010160000000000641820#88,
      0x0000190000000000641820#88, 0x0000180000000000641821#88].map decodeBits =
    [.reject .zeroMask, .reject (.widthNotAdmitted 16), .reject (.noSuchOperation 25),
      .reject (.notAddClass 0x00641821#32)] := by decide

/-- A bare table word is `DECODE` of that word, and the next step runs it (log entry 3). -/
theorem test_table_word :
    decodeTableWord 32 0x00641820 = some (.decode wordA) ∧
    answered (step (State.reset.withFetchWord 32 0x00641820)) = ask (.decode wordA) := by decide

/-! ## Results -/

/-- Vectors E1, E4, E5, E8, E12, E13 and E14. -/
theorem test_extract :
    [ask (.extract wordA 0x03E00000#32), ask (.extract 0x80000000#32 0x80000000#32),
      ask (.extract 0x7FFFFFFF#32 0x80000000#32), ask (.extract 0xABCD1234#32 0xFC000000#32),
      ask (.extract 0xDEADBEEF#32 0x0FF00000#32), ask (.extract 0xABCD1234#32 0x0000F0F0#32),
      ask (.extract 0xABCD1234#32 0x80000001#32)] =
    [3#32, 1#32, 0#32, 0x2A#32, 0xEA#32, 0x103#32, 0x80000000#32].map
      (fun v => some (.u32 v)) := by decide

/-- Negative test N1. -/
theorem test_extract_zero_mask :
    refused (exec (.extract 0xABCD1234#32 0#32) State.reset) = some .zeroMask := by decide

/-- Vectors F1 (word A) and F2 (word B). -/
theorem test_decode_A : ask (.decode wordA) = some (.fields
    { opcode := 0, rs := 3, rt := 4, rd := 3, shamt := 0, funct := 0x20, imm := 0x1820,
      jump := 0x641820, bytes := 0x00641820, fmt := 3, ft := 4, fs := 3, fd := 0 }) := by decide

theorem test_decode_B : ask (.decode wordB) = some (.fields
    { opcode := 0x2B, rs := 21, rt := 10, rd := 28, shamt := 7, funct := 0x39, imm := 0xE1F9,
      jump := 0x2AAE1F9, bytes := 0xAEAAE1F9, fmt := 21, ft := 10, fs := 28, fd := 7 }) := by decide

/-- Vector F2, field by field: all of `rs`, `rt`, `rd`, `shamt` differ. -/
theorem test_fields_B :
    [ask (.fieldOpcode wordB), ask (.fieldRs wordB), ask (.fieldRt wordB), ask (.fieldRd wordB),
      ask (.fieldShamt wordB), ask (.fieldFunct wordB), ask (.fieldImm wordB), ask (.fieldJump wordB),
      ask (.fieldBytes wordB), ask (.fieldFmt wordB), ask (.fieldFt wordB), ask (.fieldFs wordB),
      ask (.fieldFd wordB)] =
    [0x2B#32, 21#32, 10#32, 28#32, 7#32, 0x39#32, 0xE1F9#32, 0x2AAE1F9#32, 0xAEAAE1F9#32, 21#32,
      10#32, 28#32, 7#32].map (fun v => some (.u32 v)) := by decide

/-- Vectors F14 to F18: single bits at the edges of fields (15, 25, 26, 21, 6). -/
theorem test_field_edges :
    [ask (.fieldRd 0x00008000#32), ask (.fieldRs 0x02000000#32), ask (.fieldOpcode 0x04000000#32),
      ask (.fieldJump 0x04000000#32), ask (.fieldRs 0x00200000#32), ask (.fieldShamt 0x00000040#32),
      ask (.fieldFunct 0x00000040#32)] =
    [16#32, 16#32, 1#32, 0#32, 1#32, 1#32, 0#32].map (fun v => some (.u32 v)) := by decide

/-- The views of word B (R42 to R46, values of vector F2). -/
theorem test_views_B :
    [ask (.viewR wordB), ask (.viewI wordB), ask (.viewJ wordB), ask (.viewCp1 wordB),
      ask (.viewWord wordB)] =
    [some (.viewR { opcode := 0x2B, rs := 21, rt := 10, rd := 28, shamt := 7, funct := 0x39 }),
      some (.viewI { opcode := 0x2B, rs := 21, rt := 10, imm := 0xE1F9 }),
      some (.viewJ { opcode := 0x2B, jump := 0x2AAE1F9 }),
      some (.viewCp1 { opcode := 0x2B, fmt := 21, ft := 10, fs := 28, fd := 7, funct := 0x39 }),
      some (.viewWord 0xAEAAE1F9)] := by decide

/-- Vectors T0 to T7, port `imm_raw`. -/
theorem test_immRaw_B :
    [ask (.immRawNone wordB), ask (.immRawShift wordB), ask (.immRawJump wordB),
      ask (.immRawLogical wordB), ask (.immRawArithmetic wordB), ask (.immRawOther 5 wordB),
      ask (.immRawOther 7 wordB)] =
    [0#32, 7#32, 0x02AAE1F9#32, 0xE1F9#32, 0xE1F9#32, 0xE1F9#32, 0xE1F9#32].map
      (fun v => some (.u32 v)) := by decide

/-- Vectors X2, X4, X6, X8, X13, X17, X19 and negative test N5, at 32 bits. -/
theorem test_immExt_32 :
    [ask (.immExtNone .w32 0x8000#32), ask (.immExtShift .w32 0xFFFF#32),
      ask (.immExtJump .w32 0xFFFFFFFF#32), ask (.immExtLogical .w32 0x8000#32),
      ask (.immExtArithmetic .w32 0x8000#32), ask (.immExtArithmetic .w32 0x00017FFF#32),
      ask (.immExtArithmetic .w32 0x12348000#32), ask (.immExtOther 7 .w32 0x8000#32)] =
    [0x8000#32, 0xFFFF#32, 0xFFFFFFFF#32, 0x8000#32, 0xFFFF8000#32, 0x7FFF#32, 0xFFFF8000#32,
      0xFFFF8000#32].map (fun v => some (.imm32 v)) := by decide

/-- The same vectors at 64 bits. -/
theorem test_immExt_64 :
    [ask (.immExtNone .w64 0x8000#32), ask (.immExtShift .w64 0x1F#32),
      ask (.immExtJump .w64 0xFFFFFFFF#32), ask (.immExtLogical .w64 0xFFFF#32),
      ask (.immExtArithmetic .w64 0x8000#32), ask (.immExtOther 5 .w64 0x12348000#32)] =
    [0x8000#64, 0x1F#64, 0xFFFFFFFF#64, 0xFFFF#64, 0xFFFFFFFFFFFF8000#64, 0xFFFFFFFFFFFF8000#64].map
      (fun v => some (.imm64 v)) := by decide

/-- Vectors I6 to I10 and T7: word B under every tag. -/
theorem test_imm_B :
    [ask (.imm 0 .w32 wordB), ask (.imm 1 .w32 wordB), ask (.imm 2 .w32 wordB),
      ask (.imm 3 .w32 wordB), ask (.imm 4 .w32 wordB), ask (.imm 7 .w32 wordB)] =
    [0#32, 7#32, 0x02AAE1F9#32, 0xE1F9#32, 0xFFFFE1F9#32, 0xFFFFE1F9#32].map
      (fun v => some (.imm32 v)) ∧
    ask (.imm 4 .w64 wordB) = some (.imm64 0xFFFFFFFFFFFFE1F9#64) ∧
    ask (.imm 2 .w64 wordB) = some (.imm64 0x2AAE1F9#64) := by decide

/-- Vectors M1 to M16, column B. -/
theorem test_reg_B :
    [ask (.regZero wordB), ask (.regHi wordB), ask (.regLo wordB), ask (.regHiLo wordB),
      ask (.regRa wordB), ask (.regRs wordB), ask (.regRt wordB), ask (.regRd wordB),
      ask (.regCp0Rd wordB), ask (.regSr wordB), ask (.regEpc wordB), ask (.regFd wordB),
      ask (.regFs wordB), ask (.regFt wordB), ask (.regFr wordB), ask (.regFcsr wordB)] =
    [.gpr 0, .hi, .lo, .lo, .gpr 31, .gpr 21, .gpr 10, .gpr 28, .cp0 28, .cp0 12, .cp0 14, .fpr 7,
      .fpr 28, .fpr 10, .fpr 21, .fcr 31].map (fun d => some (.desc d)) := by decide

/-- Vectors M1 to M16, column F, as `desc` port codes. -/
theorem test_desc_port_F :
    [0, 1, 2, 3, 4, 5, 6, 7, 8, 9, 10, 11, 12, 13, 14, 15].map
      (fun r => descPort { State.reset.inputs with word := wordF, role := r }) =
    [0x00, 0x60, 0x61, 0x61, 0x1F, 0x10, 0x06, 0x04, 0x44, 0x4C, 0x4E, 0x24, 0x24, 0x26, 0x30, 0x9F] := by
  decide

/-- Negative tests N2 and N3, and the accepted neighbours. -/
theorem test_reg_out_of_set :
    faulted (exec (.regOutOfSet 16 wordA) State.reset) = some (.contractViolation 16) ∧
    faulted (step (presenting [regQuery 31 wordA])) = some (.contractViolation 31) ∧
    answered (step (presenting [regQuery 15 wordA])) = some (.desc (.fcr 31)) ∧
    answered (step (presenting [regQuery 0 wordA])) = some (.desc (.gpr 0)) := by decide

/-- `role_err` (R127, vectors N2, N3). -/
theorem test_role_err : [0, 15, 16, 31].map roleErr = [false, false, true, true] := by decide

/-- Vector S1, as the ADD class: RD is register 3, RS register 3, RT register 4. -/
theorem test_addClass : ask (.addClass 3 4 3 0) = some (.addClass (.gpr 3) (.gpr 3) (.gpr 4)) := by
  decide

/-- Vector S1 with three different registers, so that no two operands can be swapped (R54). -/
theorem test_addClass_order :
    ask (.addClass 1 2 5 0) = some (.addClass (.gpr 5) (.gpr 1) (.gpr 2)) := by decide

/-- Vectors Q3, Q4 and Q7. -/
theorem test_reg_coincidences :
    ask (.regCp0Rd 0x40026000#32) = ask (.regSr wordA) ∧
    ask (.regCp0Rd 0x401A7000#32) = ask (.regEpc wordA) ∧
    ask (.regFs 0x4448F800#32) = some (.desc (.fpr 31)) ∧
    ask (.regFs 0x4448F800#32) ≠ ask (.regFcsr wordA) := by decide

/-- Negative test N7: an unpaired use is no error. -/
theorem test_unpaired : ask (.immExtArithmetic .w32 0x02AAE1F9#32) = some (.imm32 0xFFFFE1F9#32) := by
  decide

/-- Negative test N4: a width of 16 is refused. -/
theorem test_width_16 :
    refused (step (presenting [{ immExtQuery 3 .w32 0x12345#32 with width := 16 }])) =
      some (.widthNotAdmitted 16) ∧
    answered (step (presenting [immExtQuery 3 .w32 0x12345#32])) = some (.imm32 0x12345#32) := by
  decide

/-- R107, "default 32": a query that names no width, and an instance whose width is not named. -/
theorem test_width_default :
    answered (step (presenting [{ immExtQuery 4 .w64 0x8000#32 with width := 0 }])) =
      some (.imm32 0xFFFF8000#32) ∧
    (portOutputs { State.reset.inputs with extTag := 4, extValue := 0x8000#32 }).immExt =
      0xFFFF8000#32 := by decide

/-- Program P1.1 and P1.2: the same bit 15 under the two extension policies. -/
theorem test_program_P1 :
    (match run 2 (presenting [encode (.imm 4 .w32 0x2408FFFB#32), encode (.imm 3 .w32 0x35098001#32)])
      with | .next t => t.answers | _ => []) =
    [.imm32 0xFFFFFFFB#32, .imm32 0x00008001#32] := by decide

/-! ## Witnesses: a concrete state and operands that meet the hypotheses of each statement -/

theorem witness_ExtractShiftsMaskedWordByLowestSetBit : (0x80000000#32 : Word) ≠ 0#32 := by decide

/-- The mask with its least set bit at the top, and that bit. -/
theorem witness_ExtractStaysBelowItsMaskAndDrivesNoPort :
    (0x80000000#32 : Word) ≠ 0#32 ∧ (0x80000000#32 : Word).getLsbD 31 = true ∧
    ∀ j < 31, (0x80000000#32 : Word).getLsbD j = false := by decide

theorem witness_ExtractWithZeroMaskIsRefused :
    let q := { wordQuery 1 wordA with value := 0 }
    (presenting [q]).queue = q :: [] ∧ q.select = 1#8 ∧ q.value = 0#32 := by decide

/-- Both ends of the range: one bit at the top, and all 32. -/
theorem witness_ContiguousMaskSelectsABitRange : (1 ≤ 1 ∧ 31 + 1 ≤ 32) ∧ (1 ≤ 32 ∧ 0 + 32 ≤ 32) := by
  decide

theorem witness_LayoutRoundTripAndInjectivity :
    ∃ f, Answers (.decode wordB) State.reset (.fields f) :=
  ⟨_, _, rfl, rfl⟩

theorem witness_unnamed_tags :
    5 ≤ (5#3 : TagCode).toNat ∧ 5 ≤ (7#3 : TagCode).toNat ∧ 4 ≤ (4#3 : TagCode).toNat := by decide

/-- One 16-bit value for each clause of the law, at the boundary. -/
theorem witness_SignExtensionLaw :
    ((0x8000#32 : Word).toNat < 2 ^ 16 ∧ (0x8000#32 : Word).getLsbD 15 = true) ∧
    ((0x7FFF#32 : Word).toNat < 2 ^ 16 ∧ (0x7FFF#32 : Word).getLsbD 15 = false) := by decide

/-- The narrowest width of each clause. -/
theorem witness_ZeroExtensionLaw : 5 ≤ 5 ∧ 26 ≤ 26 ∧ 16 ≤ 16 := by decide

/-- A query for each clause: the two admitted widths, none named, and the refused neighbours. -/
theorem witness_WidthIsThirtyTwoOrSixtyFourAndThirtyTwoByDefault :
    ∀ w ∈ [0#8, 1#8, 31#8, 32#8, 33#8, 63#8, 64#8, 65#8, 255#8],
      let q : Query := { wordQuery 22 wordA with width := w }
      (presenting [q]).queue = q :: [] ∧ q.select = 22#8 ∧ q.width = w := by decide

/-- The last code of the one role clause, and both ends of the other. -/
theorem witness_OutputPortsShowTheAnswers :
    (15#5 : RoleCode).toNat < 16 ∧ 16 ≤ (16#5 : RoleCode).toNat ∧ 16 ≤ (31#5 : RoleCode).toNat ∧
    { State.reset.inputs with role := 31 }.role = 31#5 := by decide

/-- The first and the last code outside the set, and the last inside it. -/
theorem witness_RoleTable_RoleOutsideTheSetIsFatal :
    16 ≤ (16#5 : RoleCode).toNat ∧ 16 ≤ (31#5 : RoleCode).toNat ∧ (15#5 : RoleCode).toNat < 16 ∧
    (presenting [regQuery 16 wordA]).queue = regQuery 16 wordA :: [] ∧
    (regQuery 16 wordA).select = 23#8 := by decide

theorem witness_HiLoRoleNamesLo : Answers (.regHiLo wordA) State.reset (.desc .lo) := ⟨_, rfl, rfl⟩

theorem witness_FixedRolesIgnoreTheWord : ∃ form, form ∈
    [Instr.regZero, .regHi, .regLo, .regHiLo, .regRa, .regSr, .regEpc, .regFcsr] :=
  ⟨.regSr, by simp⟩

/-- Two words that agree on bits 25:21 and nowhere else. -/
theorem witness_IndexRolesReadOneFieldAndReachTheirFile :
    (0x02A00000#32 : Word).extractLsb' 21 5 = (0xFEBFFFFF#32 : Word).extractLsb' 21 5 := by decide

theorem witness_OnlyFiveRolesDependOnTheIndices :
    Role.rs ∉ [Role.zero, .ra, .sr, .epc, .fcsr] ∧ Role.epc ∈ [Role.zero, .ra, .sr, .epc, .fcsr] := by
  decide

theorem witness_DescriptorCodesAreInjective :
    (RegDesc.cp0 12).code = 0x4C#8 ∧ RegDesc.lo.code = 0x61#8 := by decide

/-- A well-formed query of each tier. -/
theorem witness_TwoTiersOfOperations :
    (Instr.extract wordA 1#32).WellFormed ∧ (Instr.regOutOfSet 31 wordA).WellFormed := by decide

theorem witness_FaultsComeOnlyFromTheRolePort :
    faulted (step (presenting [regQuery 16 wordB])) = some (.contractViolation 16) := by decide

/-- Each of the four refusals. -/
theorem witness_RefusalsAreExactlyTheNamedOnes :
    [wordQuery 1 wordA, { wordQuery 21 wordA with width := 1 }, { wordQuery 22 wordA with width := 63 },
      wordQuery 25 wordA, wordQuery 255 wordA, wordQuery 24 wordB].map
      (fun q => refused (step (presenting [q]))) =
    [some .zeroMask, some (.widthNotAdmitted 1), some (.widthNotAdmitted 63),
      some (.noSuchOperation 25), some (.noSuchOperation 255), some (.notAddClass wordB)] := by decide

/-- A caller that keeps its contract, with a query presented. -/
theorem witness_ContractKeepingCallerNeverFaults_ContractKeepingQueueStaysSo :
    ∀ q ∈ (presenting [regQuery 15 wordA]).queue, ∀ i, decode q = .instr i →
      keepsContract i = true := by
  intro q hq i h
  obtain rfl : q = regQuery 15 wordA := by simpa [presenting] using hq
  obtain rfl : Instr.regFcsr wordA = i := Decoded.instr.inj h
  rfl

theorem witness_QueriesCommute : ∃ t u, exec (.regRs wordA) State.reset = .next t ∧
    exec (.immExtArithmetic .w64 0x8000#32) t = .next u :=
  ⟨_, _, rfl, rfl⟩

theorem witness_AskingAgainGivesTheSameAnswer :
    ∃ t, exec (.immRawJump wordB) State.reset = .next t := ⟨_, rfl⟩

/-- A step from a state that meets the invariant, with a query presented. -/
theorem witness_EveryStepKeepsTheInvariant :
    DecInvariant (presenting [wordQuery 0 wordB]) ∧
    ∃ t, step (presenting [wordQuery 0 wordB]) = .next t :=
  ⟨⟨by decide, nofun⟩, _, rfl⟩

theorem witness_NothingHappensBeforeAQueryIsPresented : State.reset.queue = [] := rfl

theorem witness_DecodingAnEncodedInstructionGivesItBack :
    (Instr.immExtOther 7 .w64 wordB).WellFormed ∧ (Instr.addClass 31 0 17 5).WellFormed := by decide

theorem witness_DecodedInstructionsAreWellFormed :
    decodeBits 0x8000170000000000641820#88 = .instr (.regOutOfSet 16 wordA) := by decide

theorem witness_StepRunsTheDecodedQuery_AStepChangesOnlyWhatItsQueryDrives :
    (presenting [regQuery 5 wordA]).queue = regQuery 5 wordA :: [] ∧
    decode (regQuery 5 wordA) = .instr (.regRs wordA) ∧
    ∃ t, step (presenting [regQuery 5 wordA]) = .next t :=
  ⟨rfl, rfl, _, rfl⟩

/-- A program of two queries that keeps the contract, and the same program reversed. -/
theorem witness_ContractKeepingPrograms :
    let p := [Instr.decode wordA, .regRd wordA]
    (∀ i ∈ p, i.WellFormed ∧ keepsContract i = true) ∧
    (presenting (p.map encode)).queue = p.map encode ∧
    (presenting (p.reverse.map encode)).queue = p.reverse.map encode := by decide

/-- A form that meets the membership hypothesis of each frame statement. -/
theorem witness_WordQueriesChangeOnlyTheWordPort :
    Instr.fieldRs ∈ [Instr.viewR, .viewI, .viewJ, .viewCp1, .viewWord, .decode, .fieldOpcode,
      .fieldRs, .fieldRt, .fieldRd, .fieldShamt, .fieldFunct, .fieldImm, .fieldJump, .fieldBytes,
      .fieldFmt, .fieldFt, .fieldFs, .fieldFd] := by simp

theorem witness_ImmRawChangesOnlyWordAndRawTag :
    (Instr.immRawJump, 2#3) ∈ [(Instr.immRawNone, 0#3), (.immRawShift, 1#3), (.immRawJump, 2#3),
      (.immRawLogical, 3#3), (.immRawArithmetic, 4#3)] := by simp

theorem witness_ImmExtChangesOnlyItsTagAndValue :
    (Instr.immExtJump, 2#3) ∈ [(Instr.immExtNone, 0#3), (.immExtShift, 1#3), (.immExtJump, 2#3),
      (.immExtLogical, 3#3), (.immExtArithmetic, 4#3)] := by simp

theorem witness_RegChangesOnlyWordAndRole :
    (Instr.regFcsr, 15#5) ∈ [(Instr.regZero, 0#5), (.regHi, 1#5), (.regLo, 2#5), (.regHiLo, 3#5),
      (.regRa, 4#5), (.regRs, 5#5), (.regRt, 6#5), (.regRd, 7#5), (.regCp0Rd, 8#5), (.regSr, 9#5),
      (.regEpc, 10#5), (.regFd, 11#5), (.regFs, 12#5), (.regFt, 13#5), (.regFr, 14#5),
      (.regFcsr, 15#5)] := by simp

end Sys2Proof.Tests
end

/-! PROOFS for spec/10_state.md: what a meaning can do, and the fields of a word. -/

namespace Sys2Proof.Claims

open Sys2Proof.Machine

/-! ## How a query completes -/

/-- A query that gives its answer from a state with the same record of answers completes with it. -/
theorem answers_of_exec_eq_answer {i : Instr} {s t : State} {a : Answer}
    (hexec : exec i s = answer a t) (hrecord : t.answers = s.answers) : Answers i s a :=
  ⟨_, hexec, congrArg (· ++ [a]) hrecord⟩

/-- A meaning that completes in every state: it drives some ports (driving them twice is driving them
once) and gives one and the same answer. -/
def Completes (meaning : State → Host.Outcome State Fault Refusal) : Prop :=
  ∃ (a : Answer) (drive : Inputs → Inputs),
    (∀ s, meaning s = answer a { s with inputs := drive s.inputs }) ∧
      ∀ p, drive (drive p) = drive p

theorem askWord_completes (a : Word → Answer) (word : Word) : Completes (askWord a word) :=
  ⟨a word, fun p => { p with word := word }, fun _ => rfl, fun _ => rfl⟩

theorem askField_completes (n : FieldName) (word : Word) : Completes (askField n word) :=
  askWord_completes _ word

theorem askImmRaw_completes (tag : TagCode) (word : Word) : Completes (askImmRaw tag word) :=
  ⟨.u32 (immRaw (decodeFields word) (Tag.ofCode tag)),
    fun p => { p with word := word, rawTag := tag }, fun _ => rfl, fun _ => rfl⟩

theorem askImmExt_completes (tag : TagCode) (width : Width) (value : Word) :
    Completes (askImmExt tag width value) :=
  ⟨immExtAnswer width (Tag.ofCode tag) value,
    fun p => { p with extTag := tag, extValue := value }, fun _ => rfl, fun _ => rfl⟩

theorem askImm_completes (tag : TagCode) (width : Width) (word : Word) :
    Completes (askImm tag width word) :=
  ⟨_, fun p => { p with word := word, rawTag := tag, extTag := tag,
                        extValue := immRaw (decodeFields word) (Tag.ofCode tag) },
    fun _ => rfl, fun _ => rfl⟩

theorem askReg_completes (role : Role) (word : Word) : Completes (askReg role word) :=
  ⟨.desc (resolveReg fixedIndices (decodeFields word) role),
    fun p => { p with word := word, role := role.code }, fun _ => rfl, fun _ => rfl⟩

theorem execAddClass_completes (rs rt rd shamt : BitVec 5) :
    Completes (execAddClass rs rt rd shamt) :=
  ⟨_, fun p => { p with word := addClassWord rs rt rd shamt }, fun _ => rfl, fun _ => rfl⟩

theorem execExtract_completes (word : Word) {mask : Word} (h : mask ≠ 0#32) :
    Completes (execExtract word mask) :=
  ⟨.u32 (extract word mask h), id, fun s => execExtract_next word mask s h, fun _ => rfl⟩

/-- What a meaning can do, whatever the state: complete, raise one fault, or end in one refusal. -/
theorem exec_cases (i : Instr) :
    Completes (exec i) ∨ (∃ e, ∀ s, exec i s = .fault e) ∨ ∃ e, ∀ s, exec i s = .refused e := by
  match i with
  | .regOutOfSet role _ => exact .inr (.inl ⟨.contractViolation role, fun _ => rfl⟩)
  | .extract word mask =>
    by_cases h0 : mask = 0#32
    · exact .inr (.inr ⟨.zeroMask, fun _ => dif_pos h0⟩)
    · exact .inl (execExtract_completes word h0)
  | .viewR word => exact .inl (askWord_completes (fun w => .viewR (viewROf w)) word)
  | .viewI word => exact .inl (askWord_completes (fun w => .viewI (viewIOf w)) word)
  | .viewJ word => exact .inl (askWord_completes (fun w => .viewJ (viewJOf w)) word)
  | .viewCp1 word => exact .inl (askWord_completes (fun w => .viewCp1 (viewCp1Of w)) word)
  | .viewWord word => exact .inl (askWord_completes (fun w => .viewWord (fieldValue .bytes w)) word)
  | .decode word => exact .inl (askWord_completes (fun w => .fields (decodeFields w)) word)
  | .fieldOpcode _ | .fieldRs _ | .fieldRt _ | .fieldRd _ | .fieldShamt _ | .fieldFunct _
  | .fieldImm _ | .fieldJump _ | .fieldBytes _ | .fieldFmt _ | .fieldFt _ | .fieldFs _
  | .fieldFd _ => exact .inl (askField_completes _ _)
  | .immRawNone _ | .immRawShift _ | .immRawJump _ | .immRawLogical _ | .immRawArithmetic _
  | .immRawOther _ _ => exact .inl (askImmRaw_completes _ _)
  | .immExtNone _ _ | .immExtShift _ _ | .immExtJump _ _ | .immExtLogical _ _
  | .immExtArithmetic _ _ | .immExtOther _ _ _ => exact .inl (askImmExt_completes _ _ _)
  | .imm _ _ _ => exact .inl (askImm_completes _ _ _)
  | .regZero _ | .regHi _ | .regLo _ | .regHiLo _ | .regRa _ | .regRs _ | .regRt _ | .regRd _
  | .regCp0Rd _ | .regSr _ | .regEpc _ | .regFd _ | .regFs _ | .regFt _ | .regFr _
  | .regFcsr _ => exact .inl (askReg_completes _ _)
  | .addClass _ _ _ _ => exact .inl (execAddClass_completes _ _ _ _)

/-- Settles O38: the drive of a completing query leaves the record of answers alone. -/
theorem answersDependOnTheOperandsAlone : Obligations.AnswersDependOnTheOperandsAlone := by
  intro i
  obtain ⟨a, _, hexec, -⟩ | hstops := exec_cases i
  · exact .inl ⟨a, fun s => answers_of_exec_eq_answer (hexec s) rfl⟩
  · exact .inr hstops

/-! ## The fields of a word -/

/-- `DECODE` completes with the bundle of its word (spec/41_field_decode.md R70). -/
theorem answers_decode (word : Word) (s : State) :
    Answers (.decode word) s (.fields (decodeFields word)) :=
  answers_of_exec_eq_answer (t := s.driveWord word) rfl (State.driveWord_answers ..)

/-- A bit of a field that starts at bit 0 of the word. -/
theorem getLsbD_fieldValue_of_offset_zero {n : FieldName} (hn : fieldOffset n = 0) (word : Word)
    (k : Nat) :
    (fieldValue n word).getLsbD k = (decide (k < fieldWidth n) && word.getLsbD k) := by
  rw [getLsbD_fieldValue, hn, Nat.zero_add]

/-- Fields cut by one mask are aliases of each other. -/
theorem fieldValue_eq_of_fieldMask_eq {m n : FieldName} (h : fieldMask m = fieldMask n)
    (word : Word) : fieldValue m word = fieldValue n word := by
  simp only [fieldValue, h]

/-- Settles O5: bit by bit from the field table; the aliases share their masks. -/
theorem fieldsAreTheNamedBitsOfTheWord : Obligations.FieldsAreTheNamedBitsOfTheWord := by
  intro word s
  refine ⟨decodeFields word, answers_decode word s, fun k => ⟨?_, ?_, ?_, ?_, ?_, ?_, ?_, ?_⟩,
    fieldValue_bytes word, ?_, ?_, ?_, ?_⟩
  · exact getLsbD_fieldValue .opcode word k
  · exact getLsbD_fieldValue .rs word k
  · exact getLsbD_fieldValue .rt word k
  · exact getLsbD_fieldValue .rd word k
  · exact getLsbD_fieldValue .shamt word k
  · exact getLsbD_fieldValue_of_offset_zero (n := .funct) rfl word k
  · exact getLsbD_fieldValue_of_offset_zero (n := .imm) rfl word k
  · exact getLsbD_fieldValue_of_offset_zero (n := .jump) rfl word k
  · exact fieldValue_eq_of_fieldMask_eq (m := .fmt) (n := .rs) rfl word
  · exact fieldValue_eq_of_fieldMask_eq (m := .ft) (n := .rt) rfl word
  · exact fieldValue_eq_of_fieldMask_eq (m := .fs) (n := .rd) rfl word
  · exact fieldValue_eq_of_fieldMask_eq (m := .fd) (n := .shamt) rfl word

end Sys2Proof.Claims

/-! PROOFS for spec/30_encoding.md: the composed immediate, row by row (R49). -/

namespace Sys2Proof.Claims

open Sys2Proof.Machine

/-- `IMM` completes with the immediate its tag routes, extended as that tag says
(spec/42_immediate_router.md R106). -/
theorem answers_imm (tag : TagCode) (width : Width) (word : Word) (s : State) :
    Answers (.imm tag width word) s
      (immExtAnswer width (Tag.ofCode tag) (immRaw (decodeFields word) (Tag.ofCode tag))) :=
  answers_of_exec_eq_answer rfl rfl

/-- One row of R49's table: the tag a code behaves as, and the routed immediate extended under it to
32 and to 64 bits, give what `IMM` answers at the two widths. -/
theorem answers_imm_w32_w64 {code : TagCode} {tag : Tag} {word : Word} {v32 : BitVec 32}
    {v64 : BitVec 64} (hcode : Tag.ofCode code = tag)
    (h32 : extendTo 32 tag (immRaw (decodeFields word) tag) = v32)
    (h64 : extendTo 64 tag (immRaw (decodeFields word) tag) = v64) (s : State) :
    Answers (.imm code .w32 word) s (.imm32 v32) ∧
      Answers (.imm code .w64 word) s (.imm64 v64) := by
  subst hcode h32 h64
  exact ⟨answers_imm code .w32 word s, answers_imm code .w64 word s⟩

/-- A field zero-extended by `m` bits above its own width is its bit range with `m` zeros above. -/
theorem setWidth_fieldValue_eq_zero_append (m : Nat) (n : FieldName) (word : Word) :
    (fieldValue n word).setWidth (m + fieldWidth n) =
      0#m ++ word.extractLsb' (fieldOffset n) (fieldWidth n) := by
  refine BitVec.eq_of_getLsbD_eq fun k hk => ?_
  rw [BitVec.getLsbD_setWidth, getLsbD_fieldValue, BitVec.getLsbD_append]
  by_cases hfield : k < fieldWidth n
  · simp [hfield, hk]
  · simp [hfield]

/-- Every tag code from 4 behaves as `Arithmetic` (spec/10_state.md R24). -/
theorem ofCode_eq_arithmetic : ∀ {code : TagCode}, 4 ≤ code.toNat →
    Tag.ofCode code = .arithmetic := by decide

/-- The `imm` field is the low half of the word, so its sign extension reads no bit outside it. -/
theorem signExtends16_fieldValue_imm (w : Nat) (word : Word) :
    SignExtends16 word (signExtend16 w (fieldValue .imm word)) := by
  intro k hk
  have hfield : (if k < 16 then k else 15) < fieldWidth .imm := by
    change (if k < 16 then k else 15) < 16
    split <;> omega
  rw [getLsbD_signExtend16 _ hk, getLsbD_fieldValue_of_offset_zero rfl, decide_eq_true hfield,
    Bool.true_and]

/-- Settles O20: the codes 0 to 3 each zero-extend one field of the word (or nothing), and every
code from 4 sign-extends the `imm` field. -/
theorem composedImmediateByTag : Obligations.ComposedImmediateByTag := by
  intro word s
  refine ⟨?none, ?shift, ?jump, ?logical, fun code hcode => ?arithmetic⟩
  case none =>
    exact answers_imm_w32_w64 (tag := .none) rfl (BitVec.setWidth_zero 32 32)
      (BitVec.setWidth_zero 64 32) s
  case shift =>
    exact answers_imm_w32_w64 (tag := .shift) rfl
      (setWidth_fieldValue_eq_zero_append 27 .shamt word)
      (setWidth_fieldValue_eq_zero_append 59 .shamt word) s
  case jump =>
    exact answers_imm_w32_w64 (tag := .jump) rfl
      (setWidth_fieldValue_eq_zero_append 6 .jump word)
      (setWidth_fieldValue_eq_zero_append 38 .jump word) s
  case logical =>
    exact answers_imm_w32_w64 (tag := .logical) rfl
      (setWidth_fieldValue_eq_zero_append 16 .imm word)
      (setWidth_fieldValue_eq_zero_append 48 .imm word) s
  case arithmetic =>
    obtain ⟨h32, h64⟩ :=
      answers_imm_w32_w64 (word := word) (ofCode_eq_arithmetic hcode) rfl rfl s
    exact ⟨_, _, h32, h64, signExtends16_fieldValue_imm 32 word,
      signExtends16_fieldValue_imm 64 word⟩

end Sys2Proof.Claims

/-! PROOFS for spec/40_bitfield_extractor.md: the meaning of `EXTRACT`. -/

namespace Sys2Proof.Claims

open Sys2Proof.Machine

/-- `EXTRACT` under a mask that is not zero completes with the extracted field (R60). -/
theorem answers_extract (word : Word) {mask : Word} (h : mask ≠ 0#32) (s : State) :
    Answers (.extract word mask) s (.u32 (extract word mask h)) :=
  ⟨_, execExtract_next word mask s h, rfl⟩

/-- Settles O1: the bit is `ctz mask`, the least set bit of the mask (R61), and `EXTRACT` shifts the
masked word by it whatever the mask's other bits are (R60, R63). -/
theorem extractShiftsMaskedWordByLowestSetBit :
    Obligations.ExtractShiftsMaskedWordByLowestSetBit := by
  intro word mask s h
  obtain ⟨hlt, hset, hleast⟩ := ctz_spec mask h
  exact ⟨ctz mask h, hlt, hset, hleast, answers_extract word h s⟩

end Sys2Proof.Claims

/-! PROOFS for spec/41_field_decode.md: `DECODE` and the thirteen field queries. -/

namespace Sys2Proof.Claims

open Sys2Proof.Machine

/-! ## The field queries -/

/-- The query of a field by the field's name. -/
def fieldQuery : FieldName → Word → Instr
  | .opcode => .fieldOpcode
  | .rs => .fieldRs
  | .rt => .fieldRt
  | .rd => .fieldRd
  | .shamt => .fieldShamt
  | .funct => .fieldFunct
  | .imm => .fieldImm
  | .jump => .fieldJump
  | .bytes => .fieldBytes
  | .fmt => .fieldFmt
  | .ft => .fieldFt
  | .fs => .fieldFs
  | .fd => .fieldFd

theorem exec_fieldQuery (n : FieldName) (word : Word) (s : State) :
    exec (fieldQuery n word) s = askField n word s := by
  cases n <;> rfl

/-- Every field query completes with the value of its field (R71 to R83). -/
theorem answers_fieldQuery (n : FieldName) (word : Word) (s : State) :
    Answers (fieldQuery n word) s (.u32 (fieldValue n word)) :=
  ⟨_, (exec_fieldQuery n word s).trans (askField_next n word s), rfl⟩

theorem answers_fieldQuery_of_eq {n : FieldName} {word v : Word} (hv : fieldValue n word = v)
    (s : State) : Answers (fieldQuery n word) s (.u32 v) :=
  hv ▸ answers_fieldQuery n word s

/-- The largest value of a field is all ones at its width. -/
theorem fieldValue_le (n : FieldName) (word : Word) :
    (fieldValue n word).toNat ≤ 2 ^ fieldWidth n - 1 :=
  Nat.le_sub_one_of_lt (fieldValue_lt n word)

/-- A field query answers what the field is worked out to be, and that is in the field's range. -/
theorem answers_fieldQuery_and_le {n : FieldName} {word v : Word} (hv : fieldValue n word = v)
    (s : State) :
    Answers (fieldQuery n word) s (.u32 v) ∧ v.toNat ≤ 2 ^ fieldWidth n - 1 :=
  ⟨answers_fieldQuery_of_eq hv s, hv ▸ fieldValue_le n word⟩

/-! ## The layout equations (R85) -/

/-- A field of five bits is cut by the mask of five ones. -/
theorem fieldValue_of_width_five (n : FieldName) (hn : fieldWidth n = 5) (word : Word) :
    fieldValue n word = (word >>> fieldOffset n) &&& 0x1F#32 :=
  fieldValue_eq_shift_and n word _ (hn ▸ by decide)

/-- A field at bit 0 is masked and not shifted. -/
theorem fieldValue_of_offset_zero {n : FieldName} (hn : fieldOffset n = 0) {m : Word}
    (hm : ∀ k < 32, m.getLsbD k = decide (k < fieldWidth n)) (word : Word) :
    fieldValue n word = word &&& m := by
  rw [fieldValue_eq_shift_and n word m hm, hn, BitVec.ushiftRight_zero]

theorem fieldValue_funct (word : Word) : fieldValue .funct word = word &&& 0x3F#32 :=
  fieldValue_of_offset_zero rfl (by decide) word

theorem fieldValue_imm (word : Word) : fieldValue .imm word = word &&& 0xFFFF#32 :=
  fieldValue_of_offset_zero rfl (by decide) word

theorem fieldValue_jump (word : Word) : fieldValue .jump word = word &&& 0x3FFFFFF#32 :=
  fieldValue_of_offset_zero rfl (by decide) word

/-- Settles O8: `opcode` is the top of the word, the four 5-bit fields are cut by one mask, `funct`
stands at bit 0; each range is the field's width. -/
theorem registerViewFieldQueriesAnswerTheirBits :
    Obligations.RegisterViewFieldQueriesAnswerTheirBits := by
  intro word s
  obtain ⟨hopcode, hopcodeLe⟩ := answers_fieldQuery_and_le (fieldValue_opcode word) s
  obtain ⟨hrs, hrsLe⟩ := answers_fieldQuery_and_le (fieldValue_of_width_five .rs rfl word) s
  obtain ⟨hrt, hrtLe⟩ := answers_fieldQuery_and_le (fieldValue_of_width_five .rt rfl word) s
  obtain ⟨hrd, hrdLe⟩ := answers_fieldQuery_and_le (fieldValue_of_width_five .rd rfl word) s
  obtain ⟨hshamt, hshamtLe⟩ :=
    answers_fieldQuery_and_le (fieldValue_of_width_five .shamt rfl word) s
  obtain ⟨hfunct, hfunctLe⟩ := answers_fieldQuery_and_le (fieldValue_funct word) s
  exact ⟨hopcode, hopcodeLe, hrs, hrsLe, hrt, hrtLe, hrd, hrdLe, hshamt, hshamtLe, hfunct,
    hfunctLe⟩

/-- Settles O9: the three wide fields stand at bit 0, so each is the word under its mask. -/
theorem wideFieldQueriesAnswerTheirBits : Obligations.WideFieldQueriesAnswerTheirBits := by
  intro word s
  obtain ⟨himm, himmLe⟩ := answers_fieldQuery_and_le (fieldValue_imm word) s
  obtain ⟨hjump, hjumpLe⟩ := answers_fieldQuery_and_le (fieldValue_jump word) s
  exact ⟨himm, himmLe, hjump, hjumpLe, answers_fieldQuery_of_eq (fieldValue_bytes word) s⟩

/-! ## `DECODE` -/

/-- `EXTRACT` under a field's mask answers the field. -/
theorem answers_extract_fieldMask (n : FieldName) (word : Word) (s : State) :
    Answers (.extract word (fieldMask n)) s (.u32 (fieldValue n word)) :=
  answers_extract word (fieldMask_ne_zero n) s

/-- Settles O4: the thirteen literal masks are the masks of the field table (R41). -/
theorem decodeExtractsThirteenFields : Obligations.DecodeExtractsThirteenFields := by
  intro word s
  have hextract := fun n => answers_extract_fieldMask n word s
  exact ⟨decodeFields word, answers_decode word s, hextract .opcode, hextract .rs, hextract .rt,
    hextract .rd, hextract .shamt, hextract .funct, hextract .imm, hextract .jump, hextract .bytes,
    hextract .fmt, hextract .ft, hextract .fs, hextract .fd⟩

/-- A query gives one answer from one state. -/
theorem Answers.unique {i : Instr} {s : State} {a b : Answer} (ha : Answers i s a)
    (hb : Answers i s b) : a = b := by
  obtain ⟨t, hexec, hta⟩ := ha
  obtain ⟨u, hexec', hub⟩ := hb
  obtain rfl : t = u := Host.Outcome.next.inj (hexec.symm.trans hexec')
  exact List.singleton_inj.mp (List.append_cancel_left (hta.symm.trans hub))

/-- The bundle names its word: the field `bytes` is the word itself (R79). -/
theorem bytes_of_answers_decode {word : Word} {s : State} {f : Fields}
    (h : Answers (.decode word) s (.fields f)) : f.bytes = word := by
  obtain rfl : decodeFields word = f := Answer.fields.inj ((answers_decode word s).unique h)
  exact fieldValue_bytes word

/-- A field put back at its place is the word under the field's mask. -/
theorem fieldValue_shiftLeft_fieldOffset (n : FieldName) (word : Word) :
    fieldValue n word <<< fieldOffset n = word &&& fieldMask n := by
  refine BitVec.eq_of_getLsbD_eq fun k hk => ?_
  rw [BitVec.getLsbD_and, BitVec.getLsbD_shiftLeft]
  by_cases hbelow : k < fieldOffset n
  · simp [fieldMask, hbelow]
  · obtain ⟨j, rfl⟩ := Nat.exists_eq_add_of_le (Nat.le_of_not_lt hbelow)
    rw [getLsbD_fieldMask, Nat.add_sub_cancel_left, getLsbD_fieldValue]
    simp [hk, Bool.and_comm]

/-- The six register-view fields put back at their places give the word: their masks cover it. -/
theorem registerView_roundTrip (word : Word) :
    (fieldValue .opcode word <<< 26 ||| fieldValue .rs word <<< 21 ||| fieldValue .rt word <<< 16 |||
      fieldValue .rd word <<< 11 ||| fieldValue .shamt word <<< 6 ||| fieldValue .funct word) =
      word := by
  have hmasks : fieldMask .opcode ||| fieldMask .rs ||| fieldMask .rt ||| fieldMask .rd |||
      fieldMask .shamt ||| fieldMask .funct = BitVec.allOnes 32 := by decide
  calc
    _ = (word &&& fieldMask .opcode ||| word &&& fieldMask .rs ||| word &&& fieldMask .rt |||
          word &&& fieldMask .rd ||| word &&& fieldMask .shamt ||| word &&& fieldMask .funct) := by
      simp only [← fieldValue_shiftLeft_fieldOffset, fieldOffset, BitVec.shiftLeft_zero]
    _ = word &&& (fieldMask .opcode ||| fieldMask .rs ||| fieldMask .rt ||| fieldMask .rd |||
          fieldMask .shamt ||| fieldMask .funct) := by
      simp only [BitVec.and_or_distrib_left]
    _ = word := by rw [hmasks, BitVec.and_allOnes]

/-- Settles O6: the layout equations are those of the fields; the round trip is the cover of the word
by the six masks; and a bundle names its word. -/
theorem layoutRoundTripAndInjectivity : Obligations.LayoutRoundTripAndInjectivity := by
  refine ⟨fun word s => ?_, fun word word' s s' f h h' => ?_⟩
  · exact ⟨decodeFields word, answers_decode word s, fieldValue_opcode word,
      fieldValue_of_width_five .rs rfl word, fieldValue_of_width_five .rt rfl word,
      fieldValue_of_width_five .rd rfl word, fieldValue_of_width_five .shamt rfl word,
      fieldValue_funct word, fieldValue_imm word, fieldValue_jump word, fieldValue_bytes word,
      registerView_roundTrip word⟩
  · exact (bytes_of_answers_decode h).symm.trans (bytes_of_answers_decode h')

/-! ## The coprocessor-1 fields -/

theorem fieldValue_fmt (word : Word) : fieldValue .fmt word = fieldValue .rs word :=
  fieldValue_eq_of_fieldMask_eq rfl word

theorem fieldValue_ft (word : Word) : fieldValue .ft word = fieldValue .rt word :=
  fieldValue_eq_of_fieldMask_eq rfl word

theorem fieldValue_fs (word : Word) : fieldValue .fs word = fieldValue .rd word :=
  fieldValue_eq_of_fieldMask_eq rfl word

theorem fieldValue_fd (word : Word) : fieldValue .fd word = fieldValue .shamt word :=
  fieldValue_eq_of_fieldMask_eq rfl word

/-- Settles O7: each pair of fields has one value, and a field query answers its field's value. -/
theorem floatingPointAliasesEqualIntegerFields :
    Obligations.FloatingPointAliasesEqualIntegerFields := by
  intro word s
  have hfmt := fieldValue_fmt word
  have hft := fieldValue_ft word
  have hfs := fieldValue_fs word
  have hfd := fieldValue_fd word
  exact ⟨decodeFields word, answers_decode word s, hfmt, hft, hfs, hfd,
    answers_fieldQuery_of_eq hfmt s, answers_fieldQuery_of_eq hfmt.symm s,
    answers_fieldQuery_of_eq hft s, answers_fieldQuery_of_eq hft.symm s,
    answers_fieldQuery_of_eq hfs s, answers_fieldQuery_of_eq hfs.symm s,
    answers_fieldQuery_of_eq hfd s, answers_fieldQuery_of_eq hfd.symm s⟩

/-- Two fields of one value: both queries answer it, and it is the bit range of the first, with zeros
above and in its range. -/
theorem answers_fieldQuery_pair {m n : FieldName} {word : Word}
    (h : fieldValue m word = fieldValue n word) (s : State) :
    Answers (fieldQuery m word) s (.u32 (fieldValue m word)) ∧
      Answers (fieldQuery n word) s (.u32 (fieldValue m word)) ∧
      fieldValue m word = (word.extractLsb' (fieldOffset m) (fieldWidth m)).setWidth 32 ∧
      (fieldValue m word).toNat ≤ 2 ^ fieldWidth m - 1 :=
  ⟨answers_fieldQuery m word s, answers_fieldQuery_of_eq h.symm s, fieldValue_eq_extractLsb' m word,
    fieldValue_le m word⟩

/-- Settles O10: each coprocessor-1 field is its bit range and has the value of its integer field. -/
theorem coprocessor1FieldQueriesAnswerTheirBits :
    Obligations.Coprocessor1FieldQueriesAnswerTheirBits := by
  intro word s
  exact ⟨_, _, _, _, answers_fieldQuery_pair (fieldValue_fmt word) s,
    answers_fieldQuery_pair (fieldValue_ft word) s, answers_fieldQuery_pair (fieldValue_fs word) s,
    answers_fieldQuery_pair (fieldValue_fd word) s⟩

end Sys2Proof.Claims

/-! PROOFS for spec/42_immediate_router.md: `IMM_RAW` and `IMM_EXT`, row by row. -/

namespace Sys2Proof.Claims

open Sys2Proof.Machine

/-! ## The tables by tag code -/

/-- A tag code is the code of a tag, or the code of none (spec/10_state.md R24). -/
theorem eq_code_or_checkOtherTag : ∀ code : TagCode,
    code = (Tag.ofCode code).code ∨ checkOtherTag code = none := by decide

theorem checkOtherTag_eq_none : ∀ {code : TagCode}, 5 ≤ code.toNat →
    checkOtherTag code = none := by decide

/-- The form a tag code selects asks `IMM_RAW` under that code (R90, R91 to R96). -/
theorem exec_decodeImmRaw (code : TagCode) (word : Word) (s : State) :
    exec (decodeImmRaw code word) s = askImmRaw code word s := by
  obtain hnamed | hother := eq_code_or_checkOtherTag code
  · rw [hnamed]
    cases Tag.ofCode code <;> rfl
  · rw [decodeImmRaw_other hother]
    rfl

/-- The form a tag code selects asks `IMM_EXT` under that code (R97, R98 to R103). -/
theorem exec_decodeImmExt (code : TagCode) (width : Width) (value : Word) (s : State) :
    exec (decodeImmExt code width value) s = askImmExt code width value s := by
  obtain hnamed | hother := eq_code_or_checkOtherTag code
  · rw [hnamed]
    cases Tag.ofCode code <;> rfl
  · rw [decodeImmExt_other hother]
    rfl

theorem answers_decodeImmRaw (code : TagCode) (word : Word) (s : State) :
    Answers (decodeImmRaw code word) s (.u32 (immRaw (decodeFields word) (Tag.ofCode code))) :=
  ⟨_, (exec_decodeImmRaw code word s).trans (askImmRaw_next code word s), rfl⟩

theorem answers_decodeImmExt (code : TagCode) (width : Width) (value : Word) (s : State) :
    Answers (decodeImmExt code width value) s (immExtAnswer width (Tag.ofCode code) value) :=
  ⟨_, (exec_decodeImmExt code width value s).trans (askImmExt_next code width value s), rfl⟩

/-- A row of the `IMM_RAW` table: the form its code selects, and the field its tag routes. -/
theorem rawRow_of_eq {code : TagCode} {i : Instr} {word v : Word} {s : State}
    (hform : decodeImmRaw code word = i)
    (hv : immRaw (decodeFields word) (Tag.ofCode code) = v) : RawRow code i word s v := by
  subst hform hv
  exact ⟨rfl, answers_decodeImmRaw code word s⟩

/-- A row of the `IMM_EXT` table: the form its code selects, the value extended under its tag. -/
theorem extRow_of_eq {code : TagCode} {form : Width → Word → Instr} {value : Word}
    {v32 : BitVec 32} {v64 : BitVec 64} {s : State} (hform : decodeImmExt code = form)
    (h32 : extendTo 32 (Tag.ofCode code) value = v32)
    (h64 : extendTo 64 (Tag.ofCode code) value = v64) :
    ExtRow code form value s v32 v64 := by
  subst hform h32 h64
  exact ⟨rfl, rfl, answers_decodeImmExt code .w32 value s, answers_decodeImmExt code .w64 value s⟩

/-! ## `IMM_RAW` -/

/-- Settles O14: each tag code routes nothing or one field, and a field is its mask's bits, in the
range of its width; the codes from 5 behave as `Arithmetic`. -/
theorem immRawSelectsTheFieldOfItsTag : Obligations.ImmRawSelectsTheFieldOfItsTag := by
  intro word s
  have hshamt := fieldValue_of_width_five .shamt rfl word
  have hjump := fieldValue_jump word
  have himm := fieldValue_imm word
  refine ⟨rawRow_of_eq rfl rfl, rawRow_of_eq rfl hshamt, hshamt ▸ fieldValue_le .shamt word,
    rawRow_of_eq rfl hjump, hjump ▸ fieldValue_le .jump word, rawRow_of_eq rfl himm,
    rawRow_of_eq rfl himm, himm ▸ fieldValue_le .imm word, fun code hcode => ?_⟩
  have htag : Tag.ofCode code = .arithmetic := ofCode_eq_arithmetic (by omega)
  exact rawRow_of_eq (decodeImmRaw_other (checkOtherTag_eq_none hcode) word) (htag ▸ himm)

/-! ## `IMM_EXT` under a zero-extending tag -/

/-- Every tag but `Arithmetic` zero-extends (R98 to R101). -/
theorem extendTo_eq_setWidth {tag : Tag} (htag : tag ≠ .arithmetic) (n : Nat) (value : Word) :
    extendTo n tag value = value.setWidth n := by
  cases tag
  case arithmetic => exact absurd rfl htag
  all_goals rfl

/-- A row of the `IMM_EXT` table under a zero-extending tag: the value, with zeros above. -/
theorem extRow_of_ne_arithmetic {code : TagCode} {form : Width → Word → Instr}
    (hform : decodeImmExt code = form) (htag : Tag.ofCode code ≠ .arithmetic) (value : Word)
    (s : State) : ExtRow code form value s value (0#32 ++ value) := by
  refine extRow_of_eq hform ?_ ?_
  · rw [extendTo_eq_setWidth htag, BitVec.setWidth_eq]
  · rw [extendTo_eq_setWidth htag]
    exact BitVec.setWidth_eq_append (by decide)

/-- Settles O15: none of the codes 0 to 3 names `Arithmetic`. -/
theorem immExtKeepsTheValueUnderZeroExtendingTags :
    Obligations.ImmExtKeepsTheValueUnderZeroExtendingTags := by
  intro value s
  exact ⟨extRow_of_ne_arithmetic rfl (by decide) value s,
    extRow_of_ne_arithmetic rfl (by decide) value s,
    extRow_of_ne_arithmetic rfl (by decide) value s,
    extRow_of_ne_arithmetic rfl (by decide) value s⟩

/-- A field zero-extended to any number of bits that holds it is the same unsigned number. -/
theorem toNat_extendTo_fieldValue {tag : Tag} (htag : tag ≠ .arithmetic) (f : FieldName)
    (word : Word) {n : Nat} (hn : fieldWidth f ≤ n) :
    (extendTo n tag (fieldValue f word)).toNat = (fieldValue f word).toNat :=
  toNat_extendTo htag ((fieldValue_lt f word).trans_le (Nat.pow_le_pow_right two_pos hn))

/-- Settles O19: the three raw fields are below two to their widths, so zero extension keeps their
numbers; each tag's forms answer the routed field and its extension. -/
theorem zeroExtensionLaw : Obligations.ZeroExtensionLaw := by
  intro word s
  have hshift := fun width =>
    answers_decodeImmExt Tag.shift.code width (fieldValue .shamt word) s
  have hjump := fun width => answers_decodeImmExt Tag.jump.code width (fieldValue .jump word) s
  have hlogical := fun width =>
    answers_decodeImmExt Tag.logical.code width (fieldValue .imm word) s
  exact ⟨fieldValue .shamt word, fieldValue .jump word, fieldValue .imm word,
    answers_decodeImmRaw Tag.shift.code word s, answers_decodeImmRaw Tag.jump.code word s,
    answers_decodeImmRaw Tag.logical.code word s,
    fun _ hn => toNat_extendTo_fieldValue (by decide) .shamt word hn,
    fun _ hn => toNat_extendTo_fieldValue (by decide) .jump word hn,
    fun _ hn => toNat_extendTo_fieldValue (by decide) .imm word hn,
    fun n => toNat_extendTo (by decide) (Nat.two_pow_pos n),
    hshift .w32, hshift .w64, hjump .w32, hjump .w64, hlogical .w32, hlogical .w64⟩

/-! ## `IMM_EXT` under `Arithmetic` -/

/-- With bit 15 set the sign extension to 32 bits fills the upper half with ones. -/
theorem signExtend16_of_bit15_set {imm : Word} (hset : imm.getLsbD 15 = true) :
    signExtend16 32 imm = imm ||| 0xFFFF0000#32 := by
  have hones : ∀ k < 32, (0xFFFF0000#32).getLsbD k = decide (16 ≤ k) := by decide
  refine BitVec.eq_of_getLsbD_eq fun k hk => ?_
  rw [getLsbD_signExtend16 imm hk, BitVec.getLsbD_or, hones k hk]
  split
  · case isTrue hlow => simp [hlow]
  · case isFalse hhigh => rw [hset, decide_eq_true (Nat.le_of_not_lt hhigh), Bool.or_true]

/-- With bit 15 clear the sign extension to 32 bits leaves a 16-bit value. -/
theorem signExtend16_of_bit15_clear {imm : Word} (himm : imm.toNat < 2 ^ 16)
    (hclear : imm.getLsbD 15 = false) : signExtend16 32 imm = imm := by
  refine BitVec.eq_of_getLsbD_eq fun k hk => ?_
  rw [getLsbD_signExtend16 imm hk]
  split
  · rfl
  · case isFalse hhigh =>
    have hzero : imm.getLsbD k = false := Nat.testBit_lt_two_pow
      (himm.trans_le (Nat.pow_le_pow_right two_pos (Nat.le_of_not_lt hhigh)))
    rw [hclear, hzero]

/-- Settles O18: bit 15 set fills the upper half with ones, bit 15 clear with the zeros that are
there. -/
theorem signExtensionLaw : Obligations.SignExtensionLaw := by
  intro imm s himm
  have hanswer : Answers (.immExtArithmetic .w32 imm) s (.imm32 (signExtend16 32 imm)) :=
    answers_decodeImmExt Tag.arithmetic.code .w32 imm s
  refine ⟨fun hset => ?_, fun hclear => ?_⟩
  · rwa [signExtend16_of_bit15_set hset] at hanswer
  · rwa [signExtend16_of_bit15_clear himm hclear] at hanswer

end Sys2Proof.Claims

/-! PROOFS for spec/43_register_mapper.md: `REG` under the sixteen roles and outside the set. -/

namespace Sys2Proof.Claims

open Sys2Proof.Machine

/-! ## The queries by role code -/

/-- The select code of `REG` leaves the choice of the form to the role code (R111 to R127). -/
theorem decode_regQuery (code : RoleCode) (word : Word) :
    decode (regQuery code word) = .instr (decodeReg code word) := rfl

/-- The form the code of a role selects asks `REG` under that role (R110). -/
theorem exec_decodeReg_code (role : Role) (word : Word) (s : State) :
    exec (decodeReg role.code word) s = askReg role word s := by
  cases role <;> rfl

theorem answers_decodeReg_code (role : Role) (word : Word) (s : State) :
    Answers (decodeReg role.code word) s
      (.desc (resolveReg fixedIndices (decodeFields word) role)) :=
  ⟨_, (exec_decodeReg_code role word s).trans (askReg_next role word s), rfl⟩

/-- A code from 16 selects the form outside the closed set (R127). -/
theorem decode_regQuery_outOfSet {code : RoleCode} (h : 16 ≤ code.toNat) (word : Word) :
    decode (regQuery code word) = .instr (.regOutOfSet code word) := by
  have h16 : ¬ code < 16#5 := Nat.not_lt.mpr h
  rw [decode_regQuery, decodeReg_outOfSet h16]

theorem exec_regOutOfSet (code : RoleCode) (word : Word) (s : State) :
    exec (.regOutOfSet code word) s = .fault (.contractViolation code) := rfl

/-- Settles O23: the form of each role answers what the mapper resolves the role to, and the codes
from 16 name no role. -/
theorem roleTable : Obligations.RoleTable := by
  intro word s
  have hrole := fun role => answers_decodeReg_code role word s
  exact ⟨decodeFields word, answers_decode word s, hrole .zero, hrole .hi, hrole .lo, hrole .hiLo,
    hrole .ra, hrole .rs, hrole .rt, hrole .rd, hrole .cp0Rd, hrole .sr, hrole .epc, hrole .fd,
    hrole .fs, hrole .ft, hrole .fr, hrole .fcsr,
    fun code hcode => ⟨decode_regQuery_outOfSet hcode word, exec_regOutOfSet code word s⟩⟩

/-! ## The rows with their descriptor codes -/

/-- A row of the role table: the role's own code, what the mapper resolves the role to, and the code
of that descriptor. -/
theorem roleRow_of_eq (role : Role) {word : Word} {s : State} {d : RegDesc} {c : DescCode}
    (hd : resolveReg fixedIndices (decodeFields word) role = d) (hc : d.code = c) :
    RoleRow role.code (decodeReg role.code word) word s d c :=
  ⟨decode_regQuery role.code word, hd ▸ answers_decodeReg_code role word s, hc⟩

/-- The code of an indexed descriptor is its file's base code with the index or-ed in (R26). -/
theorem file_append_index (file : BitVec 3) (i : RegIndex) :
    file ++ i = (file ++ 0#5) ||| i.setWidth 8 := by
  refine BitVec.eq_of_getLsbD_eq fun k hk => ?_
  simp only [BitVec.getLsbD_or, BitVec.getLsbD_append, BitVec.getLsbD_setWidth]
  by_cases hindex : k < 5
  · simp [hindex, hk]
  · simp [hindex, BitVec.getLsbD_of_ge i k (Nat.le_of_not_lt hindex)]

theorem code_gpr (i : RegIndex) : (RegDesc.gpr i).code = 0x00#8 ||| i.setWidth 8 :=
  file_append_index 0 i

theorem code_fpr (i : RegIndex) : (RegDesc.fpr i).code = 0x20#8 ||| i.setWidth 8 :=
  file_append_index 1 i

theorem code_cp0 (i : RegIndex) : (RegDesc.cp0 i).code = 0x40#8 ||| i.setWidth 8 :=
  file_append_index 2 i

/-- Settles O24: the index of each role is its field's bit range. -/
theorem gprAndCp0RolesNameTheirField : Obligations.GprAndCp0RolesNameTheirField := by
  intro word s
  exact ⟨roleRow_of_eq .rs (congrArg RegDesc.gpr (regIndex_rs word)) (code_gpr _),
    roleRow_of_eq .rt (congrArg RegDesc.gpr (regIndex_rt word)) (code_gpr _),
    roleRow_of_eq .rd (congrArg RegDesc.gpr (regIndex_rd word)) (code_gpr _),
    roleRow_of_eq .cp0Rd (congrArg RegDesc.cp0 (regIndex_rd word)) (code_cp0 _)⟩

/-- Settles O25: the index of each role is its field's bit range; `FR` reads the field `fmt`. -/
theorem fprRolesNameTheirField : Obligations.FprRolesNameTheirField := by
  intro word s
  exact ⟨roleRow_of_eq .fd (congrArg RegDesc.fpr (regIndex_fd word)) (code_fpr _),
    roleRow_of_eq .fs (congrArg RegDesc.fpr (regIndex_fs word)) (code_fpr _),
    roleRow_of_eq .ft (congrArg RegDesc.fpr (regIndex_ft word)) (code_fpr _),
    roleRow_of_eq .fr (congrArg RegDesc.fpr (regIndex_fmt word)) (code_fpr _)⟩

/-! ## The fixed roles -/

/-- Settles O26: `HI_LO` resolves to LO, and a query has one answer, so any descriptor it answers is
LO. -/
theorem hiLoRoleNamesLo : Obligations.HiLoRoleNamesLo := by
  intro word s
  have hhiLo : Answers (.regHiLo word) s (.desc .lo) := answers_decodeReg_code .hiLo word s
  have hlo : Answers (.regLo word) s (.desc .lo) := answers_decodeReg_code .lo word s
  refine ⟨roleRow_of_eq .hi rfl rfl, roleRow_of_eq .lo rfl rfl, roleRow_of_eq .hiLo rfl rfl,
    fun d hd => ?_⟩
  obtain rfl : RegDesc.lo = d := Answer.desc.inj (hhiLo.unique hd)
  exact ⟨nofun, hlo⟩

/-- The roles whose register no field of the word names (R128). -/
def fixedRoles : List Role := [.zero, .hi, .lo, .hiLo, .ra, .sr, .epc, .fcsr]

/-- The mapper reads no field under a fixed role. -/
theorem resolveReg_of_mem_fixedRoles {role : Role} (h : role ∈ fixedRoles) (ix : Indices)
    (f g : Fields) : resolveReg ix f role = resolveReg ix g role := by
  cases role
  case zero | hi | lo | hiLo | ra | sr | epc | fcsr => rfl
  case rs | rt | rd | cp0Rd | fd | fs | ft | fr => exact absurd h (by decide)

/-- Settles O28: under a fixed role every bundle resolves as that of the word 0 does. -/
theorem fixedRolesIgnoreTheWord : Obligations.FixedRolesIgnoreTheWord := by
  refine ⟨?eachRole, .lo, fun word s => ?loPair⟩
  case eachRole =>
    change ∀ form ∈ fixedRoles.map fun role => decodeReg role.code, _
    refine List.forall_mem_map.mpr fun role hrole =>
      ⟨resolveReg fixedIndices (decodeFields 0) role, fun word s => ?_⟩
    rw [resolveReg_of_mem_fixedRoles hrole fixedIndices (decodeFields 0) (decodeFields word)]
    exact answers_decodeReg_code role word s
  case loPair => exact ⟨answers_decodeReg_code .hiLo word s, answers_decodeReg_code .lo word s⟩

end Sys2Proof.Claims

/-! PROOFS for spec/60_exceptions.md: the two tiers of operations. -/

namespace Sys2Proof.Claims

open Sys2Proof.Machine

/-- The form outside the closed set is the only one that breaks the caller's contract (R143 a). -/
theorem keepsContract_or_eq_regOutOfSet (i : Instr) :
    keepsContract i = true ∨ ∃ role word, i = .regOutOfSet role word := by
  unfold keepsContract
  split
  case h_1 role word => exact .inr ⟨role, word, rfl⟩
  case h_2 => exact .inl rfl

/-- Of the other two ends of a meaning, the fault is the form's outside the closed set, which breaks
the contract, and the refusal is `EXTRACT`'s with mask 0, which is not well formed (R130). -/
theorem exec_completes {i : Instr} (hwf : i.WellFormed) (hkeeps : keepsContract i = true) :
    Completes (exec i) := by
  obtain hcompletes | ⟨e, hfault⟩ | ⟨e, hrefused⟩ := exec_cases i
  · exact hcompletes
  · obtain ⟨role, word, rfl, -⟩ := exec_eq_fault (hfault .reset)
    exact absurd hkeeps Bool.false_ne_true
  · obtain ⟨word, rfl, -⟩ := exec_eq_refused (hrefused .reset)
    exact absurd rfl (Instr.wellFormed_extract.mp hwf)

/-- Settles O34: by whether the operation keeps the contract; one that does completes. -/
theorem twoTiersOfOperations : Obligations.TwoTiersOfOperations := by
  intro i s hwf
  obtain hkeeps | ⟨role, word, rfl⟩ := keepsContract_or_eq_regOutOfSet i
  · obtain ⟨a, _, hexec, -⟩ := exec_completes hwf hkeeps
    exact .inl ⟨hkeeps, _, a, hexec s, rfl⟩
  · exact .inr ⟨role, word, rfl, exec_regOutOfSet role word s⟩

end Sys2Proof.Claims

/-! PROOFS: presented queries. What the decoder reads, and the instructions it gives. -/

namespace Sys2Proof.Claims

open Sys2Proof.Machine

/-! ## Encoding and decoding -/

/-- The decoder gives back every well-formed instruction from its own query. -/
theorem decode_encode {i : Instr} (hwf : i.WellFormed) : decode (encode i) = .instr i := by
  suffices Laws.RoundTrip.Statement i from this hwf
  cases i
  exacts [Laws.RoundTrip.viewR _, Laws.RoundTrip.viewI _, Laws.RoundTrip.viewJ _,
    Laws.RoundTrip.viewCp1 _, Laws.RoundTrip.viewWord _, Laws.RoundTrip.extract _ _,
    Laws.RoundTrip.decode _, Laws.RoundTrip.fieldOpcode _, Laws.RoundTrip.fieldRs _,
    Laws.RoundTrip.fieldRt _, Laws.RoundTrip.fieldRd _, Laws.RoundTrip.fieldShamt _,
    Laws.RoundTrip.fieldFunct _, Laws.RoundTrip.fieldImm _, Laws.RoundTrip.fieldJump _,
    Laws.RoundTrip.fieldBytes _, Laws.RoundTrip.fieldFmt _, Laws.RoundTrip.fieldFt _,
    Laws.RoundTrip.fieldFs _, Laws.RoundTrip.fieldFd _, Laws.RoundTrip.immRawNone _,
    Laws.RoundTrip.immRawShift _, Laws.RoundTrip.immRawJump _, Laws.RoundTrip.immRawLogical _,
    Laws.RoundTrip.immRawArithmetic _, Laws.RoundTrip.immRawOther _ _,
    Laws.RoundTrip.immExtNone _ _, Laws.RoundTrip.immExtShift _ _, Laws.RoundTrip.immExtJump _ _,
    Laws.RoundTrip.immExtLogical _ _, Laws.RoundTrip.immExtArithmetic _ _,
    Laws.RoundTrip.immExtOther _ _ _, Laws.RoundTrip.imm _ _ _, Laws.RoundTrip.regZero _,
    Laws.RoundTrip.regHi _, Laws.RoundTrip.regLo _, Laws.RoundTrip.regHiLo _,
    Laws.RoundTrip.regRa _, Laws.RoundTrip.regRs _, Laws.RoundTrip.regRt _, Laws.RoundTrip.regRd _,
    Laws.RoundTrip.regCp0Rd _, Laws.RoundTrip.regSr _, Laws.RoundTrip.regEpc _,
    Laws.RoundTrip.regFd _, Laws.RoundTrip.regFs _, Laws.RoundTrip.regFt _, Laws.RoundTrip.regFr _,
    Laws.RoundTrip.regFcsr _, Laws.RoundTrip.regOutOfSet _ _, Laws.RoundTrip.addClass _ _ _ _]

/-- Settles O51: the 88 bits hold the six parts of the query side by side, and the query of an
instruction decodes to it. -/
theorem decodingAnEncodedInstructionGivesItBack :
    Obligations.DecodingAnEncodedInstructionGivesItBack := by
  intro i hwf
  rw [decodeBits, encodeBits, Query.ofBits_toBits, decode_encode hwf]

/-- Settles O53: the select, width, tag and role parts are literals, so the decoder computes. -/
theorem writtenOutQueriesDecode : Obligations.WrittenOutQueriesDecode := by
  unfold Obligations.WrittenOutQueriesDecode
  decide

/-! ## What a presented query decodes to -/

/-- The forms that read the instruction word alone, but `ADD_CLASS`. -/
inductive WordForm : (Word → Instr) → Prop
  | viewR : WordForm .viewR
  | viewI : WordForm .viewI
  | viewJ : WordForm .viewJ
  | viewCp1 : WordForm .viewCp1
  | viewWord : WordForm .viewWord
  | decode : WordForm .decode
  | field (n : FieldName) : WordForm (fieldQuery n)

/-- The instructions a query may be read as, by its select code, with what the decoder checks. -/
inductive ReadsAs (q : Query) : Instr → Prop
  | word {form : Word → Instr} (hform : WordForm form) (hlt : q.select.toNat < 20)
      (hne : q.select.toNat ≠ 1) : ReadsAs q (form q.word)
  | extract (hsel : q.select = 1#8) (hmask : q.value ≠ 0#32) : ReadsAs q (.extract q.word q.value)
  | immRaw (hsel : q.select = 20#8) : ReadsAs q (decodeImmRaw q.tag q.word)
  | immExt (width : Width) (hsel : q.select = 21#8) : ReadsAs q (decodeImmExt q.tag width q.value)
  | imm (width : Width) (hsel : q.select = 22#8) : ReadsAs q (.imm q.tag width q.word)
  | reg (role : Role) (hsel : q.select = 23#8) : ReadsAs q (decodeReg role.code q.word)
  | regOutOfSet (hsel : q.select = 23#8) (herr : roleErr q.role = true) :
      ReadsAs q (.regOutOfSet q.role q.word)
  | addClass (rs rt rd shamt : BitVec 5) (hsel : q.select = 24#8) :
      ReadsAs q (.addClass rs rt rd shamt)

/-- The queries that are none of DEC's, with why. -/
inductive Rejects (q : Query) : Reject → Prop
  | zeroMask (hsel : q.select = 1#8) (hmask : q.value = 0#32) : Rejects q .zeroMask
  | widthNotAdmitted (hsel : q.select = 21#8 ∨ q.select = 22#8)
      (hwidth : q.width ≠ 0#8 ∧ q.width ≠ 32#8 ∧ q.width ≠ 64#8) :
      Rejects q (.widthNotAdmitted q.width)
  | noSuchOperation (hsel : 24 < q.select.toNat) : Rejects q (.noSuchOperation q.select)
  | notAddClass (hsel : q.select = 24#8) (hword : q.word &&& addClassMask ≠ addClassMatch) :
      Rejects q (.notAddClass q.word)

/-- What the decoder gives for a query. -/
def DecodesTo (q : Query) : Decoded → Prop
  | .instr i => ReadsAs q i
  | .reject r => Rejects q r

theorem decodesTo_decodeExtract {q : Query} (hsel : q.select = 1#8) :
    DecodesTo q (decodeExtract q.word q.value) := by
  unfold decodeExtract
  split
  · case isTrue hmask => exact Rejects.zeroMask hsel hmask
  · case isFalse hmask => exact ReadsAs.extract hsel hmask

theorem decodesTo_withWidth {q : Query} {form : Width → Instr}
    (hsel : q.select = 21#8 ∨ q.select = 22#8) (hform : ∀ w, ReadsAs q (form w)) :
    DecodesTo q (withWidth q.width form) := by
  unfold withWidth
  split
  · exact hform _
  · case h_2 hnone => exact Rejects.widthNotAdmitted hsel (Width.ofBits_eq_none.mp hnone)

theorem code_of_mem_ofCode : ∀ code : RoleCode, ∀ role ∈ Role.ofCode code, code = role.code := by
  decide

/-- A role code is the code of a role, or outside the closed set (spec/10_state.md R25). -/
theorem eq_code_or_roleErr (code : RoleCode) :
    (∃ role : Role, code = role.code) ∨ roleErr code = true := by
  cases h : Role.ofCode code with
  | some role => exact .inl ⟨role, code_of_mem_ofCode code role h⟩
  | none => exact .inr (Role.ofCode_eq_none.mp h)

/-- The codes outside the closed set are those from 16 (spec/43_register_mapper.md R127). -/
theorem roleErr_iff : ∀ {code : RoleCode}, roleErr code = true ↔ 16 ≤ code.toNat := by decide

theorem decodeReg_of_roleErr {code : RoleCode} (h : roleErr code = true) (word : Word) :
    decodeReg code word = .regOutOfSet code word :=
  decodeReg_outOfSet (Nat.not_lt.mpr (roleErr_iff.mp h)) word

theorem readsAs_decodeReg {q : Query} (hsel : q.select = 23#8) :
    ReadsAs q (decodeReg q.role q.word) := by
  obtain ⟨role, hrole⟩ | herr := eq_code_or_roleErr q.role
  · rw [hrole]
    exact .reg role hsel
  · rw [decodeReg_of_roleErr herr]
    exact .regOutOfSet hsel herr

theorem decodesTo_decodeAddClass {q : Query} (hsel : q.select = 24#8) :
    DecodesTo q (decodeAddClass q.word) := by
  unfold decodeAddClass
  split
  · exact ReadsAs.addClass _ _ _ _ hsel
  · case isFalse hword => exact Rejects.notAddClass hsel hword

/-- A select code below 20 other than `EXTRACT`'s reads the word alone. -/
theorem decodesTo_word {q : Query} {k : Nat} {form : Word → Instr} (hk : q.select.toNat = k)
    (hform : WordForm form) (hrange : k < 20 ∧ k ≠ 1 := by decide) :
    DecodesTo q (.instr (form q.word)) := by
  subst hk
  exact ReadsAs.word hform hrange.1 hrange.2

/-- The decoder, select code by select code. -/
theorem decodesTo_decode (q : Query) : DecodesTo q (decode q) := by
  unfold decode
  split
  case h_1 hk => exact decodesTo_word hk .decode
  case h_2 hk => exact decodesTo_decodeExtract (BitVec.eq_of_toNat_eq hk)
  case h_3 hk => exact decodesTo_word hk .viewR
  case h_4 hk => exact decodesTo_word hk .viewI
  case h_5 hk => exact decodesTo_word hk .viewJ
  case h_6 hk => exact decodesTo_word hk .viewCp1
  case h_7 hk => exact decodesTo_word hk .viewWord
  case h_8 hk => exact decodesTo_word hk (.field .opcode)
  case h_9 hk => exact decodesTo_word hk (.field .rs)
  case h_10 hk => exact decodesTo_word hk (.field .rt)
  case h_11 hk => exact decodesTo_word hk (.field .rd)
  case h_12 hk => exact decodesTo_word hk (.field .shamt)
  case h_13 hk => exact decodesTo_word hk (.field .funct)
  case h_14 hk => exact decodesTo_word hk (.field .imm)
  case h_15 hk => exact decodesTo_word hk (.field .jump)
  case h_16 hk => exact decodesTo_word hk (.field .bytes)
  case h_17 hk => exact decodesTo_word hk (.field .fmt)
  case h_18 hk => exact decodesTo_word hk (.field .ft)
  case h_19 hk => exact decodesTo_word hk (.field .fs)
  case h_20 hk => exact decodesTo_word hk (.field .fd)
  case h_21 hk => exact ReadsAs.immRaw (BitVec.eq_of_toNat_eq hk)
  case h_22 hk =>
    have hsel : q.select = 21#8 := BitVec.eq_of_toNat_eq hk
    exact decodesTo_withWidth (.inl hsel) fun w => .immExt w hsel
  case h_23 hk =>
    have hsel : q.select = 22#8 := BitVec.eq_of_toNat_eq hk
    exact decodesTo_withWidth (.inr hsel) fun w => .imm w hsel
  case h_24 hk => exact readsAs_decodeReg (BitVec.eq_of_toNat_eq hk)
  case h_25 hk => exact decodesTo_decodeAddClass (BitVec.eq_of_toNat_eq hk)
  case h_26 =>
    simp only [imp_false] at *
    exact Rejects.noSuchOperation (by omega)

theorem readsAs_of_decode {q : Query} {i : Instr} (h : decode q = .instr i) : ReadsAs q i :=
  (h ▸ decodesTo_decode q : DecodesTo q (.instr i))

theorem rejects_of_decode {q : Query} {r : Reject} (h : decode q = .reject r) : Rejects q r :=
  (h ▸ decodesTo_decode q : DecodesTo q (.reject r))

/-! ## Decoded instructions are well formed -/

theorem wellFormed_of_wordForm {form : Word → Instr} (h : WordForm form) (word : Word) :
    (form word).WellFormed := by
  cases h
  case field n => cases n <;> rfl
  all_goals rfl

theorem wellFormed_decodeImmRaw (code : TagCode) (word : Word) :
    (decodeImmRaw code word).WellFormed := by
  obtain hnamed | hother := eq_code_or_checkOtherTag code
  · rw [hnamed]
    cases Tag.ofCode code <;> rfl
  · rw [decodeImmRaw_other hother]
    exact hother

theorem wellFormed_decodeImmExt (code : TagCode) (width : Width) (value : Word) :
    (decodeImmExt code width value).WellFormed := by
  obtain hnamed | hother := eq_code_or_checkOtherTag code
  · rw [hnamed]
    cases Tag.ofCode code <;> rfl
  · rw [decodeImmExt_other hother]
    exact hother

theorem wellFormed_of_readsAs {q : Query} {i : Instr} (h : ReadsAs q i) : i.WellFormed := by
  cases h with
  | word hform => exact wellFormed_of_wordForm hform q.word
  | extract _ hmask => exact Instr.wellFormed_extract.mpr hmask
  | immRaw => exact wellFormed_decodeImmRaw q.tag q.word
  | immExt width => exact wellFormed_decodeImmExt q.tag width q.value
  | imm => rfl
  | reg role => cases role <;> rfl
  | regOutOfSet _ herr =>
    exact Instr.wellFormed_regOutOfSet.mpr (Nat.not_lt.mpr (roleErr_iff.mp herr))
  | addClass => rfl

/-- Settles O52: the decoder checks the mask of `EXTRACT`, and selects an OTHER or OUT_OF_SET form
only under a code that names no tag or role. -/
theorem decodedInstructionsAreWellFormed : Obligations.DecodedInstructionsAreWellFormed := by
  intro b i hdec
  exact wellFormed_of_readsAs (readsAs_of_decode hdec)

end Sys2Proof.Claims

/-! PROOFS: one step. What a presented query may drive, answer, fault with or be refused for. -/

namespace Sys2Proof.Claims

open Sys2Proof.Machine

/-! ## Every answer is lawful -/

/-- The bundle is the layout of its word (spec/41_field_decode.md R85). -/
theorem decodeFields_eq_layout (word : Word) : decodeFields word = layout word := by
  simp only [decodeFields, layout, fieldValue_opcode, fieldValue_fmt, fieldValue_ft, fieldValue_fs,
    fieldValue_fd, fieldValue_funct, fieldValue_imm, fieldValue_jump, fieldValue_bytes,
    fieldValue_of_width_five .rs rfl, fieldValue_of_width_five .rt rfl,
    fieldValue_of_width_five .rd rfl, fieldValue_of_width_five .shamt rfl, fieldOffset]

theorem lawful_decodeFields (word : Word) : (Answer.fields (decodeFields word)).Lawful := by
  change decodeFields word = layout (fieldValue .bytes word)
  rw [fieldValue_bytes, decodeFields_eq_layout]

/-- The sign extension of 16 bits is read off its own low 16 bits. -/
theorem signExtend16_eq_signExtend_setWidth (value : Word) :
    signExtend16 64 value = ((signExtend16 64 value).setWidth 16).signExtend 64 := by
  have hlow : (signExtend16 64 value).setWidth 16 = value.setWidth 16 := by
    refine BitVec.eq_of_getLsbD_eq fun k hk => ?_
    rw [BitVec.getLsbD_setWidth, getLsbD_signExtend16 value (by omega), BitVec.getLsbD_setWidth,
      if_pos hk]
  rw [hlow, signExtend16]

theorem lawful_immExtAnswer (width : Width) (tag : Tag) (value : Word) :
    (immExtAnswer width tag value).Lawful := by
  cases width with
  | w32 => trivial
  | w64 =>
    by_cases htag : tag = .arithmetic
    · subst htag
      exact .inr (signExtend16_eq_signExtend_setWidth value)
    · refine .inl ?_
      rw [immExt, toNat_extendTo htag (value.isLt.trans (by decide))]
      exact value.isLt

theorem produced_resolveReg (f : Fields) (role : Role) :
    (resolveReg fixedIndices f role).Produced := by
  cases role
  case fcsr => rfl
  all_goals trivial

/-! ## The word forms -/

/-- A word form asks one question of its word, which it drives, and gets a lawful answer. -/
theorem exec_wordForm {form : Word → Instr} (h : WordForm form) (word : Word) :
    ∃ a : Answer, (∀ s, exec (form word) s = answer a (s.driveWord word)) ∧ a.Lawful := by
  cases h
  case decode => exact ⟨_, fun _ => rfl, lawful_decodeFields word⟩
  case field n => exact ⟨_, exec_fieldQuery n word, trivial⟩
  all_goals exact ⟨_, fun _ => rfl, trivial⟩

/-! ## What a completed query changes -/

/-- The input ports a query may drive, by its select code (log entry 15), from `p` to `p'`. -/
structure Drives (q : Query) (p p' : Inputs) : Prop where
  word : q.select = 1#8 ∨ q.select = 21#8 → p'.word = p.word
  rawTag : q.select ≠ 20#8 → q.select ≠ 22#8 → p'.rawTag = p.rawTag
  ext : q.select ≠ 21#8 → q.select ≠ 22#8 → p'.extTag = p.extTag ∧ p'.extValue = p.extValue
  role : q.select ≠ 23#8 → p'.role = p.role
  roleInSet : roleErr p.role = false → roleErr p'.role = false

theorem drives_driveWord {q : Query} (hsel : ¬ (q.select = 1#8 ∨ q.select = 21#8)) (p : Inputs)
    (word : Word) : Drives q p { p with word := word } :=
  ⟨fun h => absurd h hsel, fun _ _ => rfl, fun _ _ => ⟨rfl, rfl⟩, fun _ => rfl, id⟩

/-- How a presented query may end: it drives its ports and gets one lawful answer; or it is `REG`
under a code outside the closed set; or it is none of DEC's queries. -/
inductive QueryEnds (q : Query) (s : State) : Host.Outcome State Fault Refusal → Prop
  | completes (a : Answer) (p : Inputs) (hlawful : a.Lawful) (hdrives : Drives q s.inputs p) :
      QueryEnds q s (.next { s with inputs := p, answers := s.answers ++ [a] })
  | faults (hsel : q.select = 23#8) (herr : roleErr q.role = true) :
      QueryEnds q s (.fault (.contractViolation q.role))
  | refused (r : Reject) (hrejects : Rejects q r) : QueryEnds q s (.refused (refusalOf r))

theorem queryEnds_of_eq_answer {q : Query} {s : State} {a : Answer} {p : Inputs}
    {outcome : Host.Outcome State Fault Refusal}
    (hanswer : outcome = answer a { s with inputs := p }) (hlawful : a.Lawful)
    (hdrives : Drives q s.inputs p) : QueryEnds q s outcome :=
  hanswer ▸ .completes a p hlawful hdrives

/-- Every form a query may be read as drives the ports of its family and answers lawfully, or is the
form outside the closed set. -/
theorem queryEnds_exec {q : Query} {i : Instr} (h : ReadsAs q i) (s : State) :
    QueryEnds q s (exec i s) := by
  cases h with
  | word hform hlt hne =>
    obtain ⟨a, hexec, hlawful⟩ := exec_wordForm hform q.word
    refine queryEnds_of_eq_answer (hexec s) hlawful (drives_driveWord ?_ s.inputs q.word)
    rintro (hsel | hsel)
    · simp [hsel] at hne
    · simp [hsel] at hlt
  | extract hsel hmask =>
    exact queryEnds_of_eq_answer (execExtract_next q.word q.value s hmask) trivial
      ⟨fun _ => rfl, fun _ _ => rfl, fun _ _ => ⟨rfl, rfl⟩, fun _ => rfl, id⟩
  | immRaw hsel =>
    exact queryEnds_of_eq_answer (exec_decodeImmRaw q.tag q.word s) trivial
      ⟨by simp [hsel], fun h => absurd hsel h, fun _ _ => ⟨rfl, rfl⟩, fun _ => rfl, id⟩
  | immExt width hsel =>
    exact queryEnds_of_eq_answer (exec_decodeImmExt q.tag width q.value s)
      (lawful_immExtAnswer ..)
      ⟨fun _ => rfl, fun _ _ => rfl, fun h => absurd hsel h, fun _ => rfl, id⟩
  | imm width hsel =>
    exact queryEnds_of_eq_answer rfl (lawful_immExtAnswer ..)
      ⟨by simp [hsel], fun _ h => absurd hsel h, fun _ h => absurd hsel h, fun _ => rfl, id⟩
  | reg role hsel =>
    exact queryEnds_of_eq_answer (exec_decodeReg_code role q.word s)
      (produced_resolveReg (decodeFields q.word) role)
      ⟨by simp [hsel], fun _ _ => rfl, fun _ _ => ⟨rfl, rfl⟩, fun h => absurd hsel h,
        fun _ => roleErr_code role⟩
  | regOutOfSet hsel herr => exact .faults hsel herr
  | addClass rs rt rd shamt hsel =>
    exact queryEnds_of_eq_answer rfl ⟨_, _, _, rfl, rfl, rfl⟩
      (drives_driveWord (by simp [hsel]) s.inputs _)

/-- What a presented query can do, said once. -/
theorem queryEnds_runQuery (q : Query) (s : State) : QueryEnds q s (runQuery q s) := by
  cases hdec : decode q with
  | instr i => exact runQuery_of_instr hdec s ▸ queryEnds_exec (readsAs_of_decode hdec) s
  | reject r => exact runQuery_of_reject hdec s ▸ .refused r (rejects_of_decode hdec)

theorem queryEnds_of_step {q : Query} {rest : List Query} {s : State}
    (hqueue : s.queue = q :: rest) : QueryEnds q { s with queue := rest } (step s) :=
  step_of_queue_cons hqueue ▸ queryEnds_runQuery q _

/-- What a step can do: nothing, with nothing presented; else it ends as the oldest query does. -/
theorem step_ends (s : State) : (s.queue = [] ∧ step s = .next s) ∨
    ∃ q rest, s.queue = q :: rest ∧ QueryEnds q { s with queue := rest } (step s) := by
  obtain hidle | ⟨q, rest, hqueue, -⟩ := step_cases s
  · exact .inl hidle
  · exact .inr ⟨q, rest, hqueue, queryEnds_of_step hqueue⟩

/-- Settles O48: a step with nothing presented changes nothing, and a completed query drives the
role port, if at all, with a role of the set, and adds a lawful answer. -/
theorem everyStepKeepsTheInvariant : Obligations.EveryStepKeepsTheInvariant := by
  intro s t hinv hstep
  obtain ⟨-, hidle⟩ | ⟨q, rest, -, hends⟩ := step_ends s
  · obtain rfl : s = t := Host.Outcome.next.inj (hidle.symm.trans hstep)
    exact hinv
  · rw [hstep] at hends
    cases hends with
    | completes a p hlawful hdrives =>
      refine ⟨hdrives.roleInSet hinv.roleInSet, fun b hb => ?_⟩
      obtain hold | hnew := List.mem_append.mp hb
      · exact hinv.lawful b hold
      · exact List.mem_singleton.mp hnew ▸ hlawful

/-- Settles O49: the role port holds code 0, and there is no answer. -/
theorem resetMeetsTheInvariant : Obligations.ResetMeetsTheInvariant :=
  ⟨rfl, nofun⟩

/-- Settles O46: a completed query leaves the waiting queries, adds an answer, drives its ports. -/
theorem aStepChangesOnlyWhatItsQueryDrives : Obligations.AStepChangesOnlyWhatItsQueryDrives := by
  intro q rest s t hqueue hstep
  cases (hstep ▸ queryEnds_of_step hqueue : QueryEnds q { s with queue := rest } (.next t)) with
  | completes a p _ hdrives =>
    exact ⟨rfl, ⟨a, rfl⟩, hdrives.role, hdrives.rawTag, hdrives.ext, hdrives.word⟩

/-- Settles O50: the reset state is written out, and a step needs a presented query. -/
theorem nothingHappensBeforeAQueryIsPresented :
    Obligations.NothingHappensBeforeAQueryIsPresented :=
  ⟨rfl, rfl, rfl, fun _ hqueue => step_of_queue_nil hqueue⟩

theorem step_of_decode {q : Query} {rest : List Query} {i : Instr} {s : State}
    (hqueue : s.queue = q :: rest) (hdec : decode q = .instr i) :
    step s = exec i { s with queue := rest } := by
  rw [step_of_queue_cons hqueue, runQuery_of_instr hdec]

/-- Settles O54: fetching takes the oldest query off the queue, and running it decodes it. -/
theorem stepRunsTheDecodedQuery : Obligations.StepRunsTheDecodedQuery := by
  intro q rest i s hqueue hdec
  exact step_of_decode hqueue hdec

end Sys2Proof.Claims

/-! PROOFS: the one error and the refusals (spec/60_exceptions.md, spec/70_reset_and_hazards.md). -/

namespace Sys2Proof.Claims

open Sys2Proof.Machine

/-! ## The fault -/

theorem decode_of_select_reg {q : Query} (hsel : q.select = 23#8) :
    decode q = .instr (decodeReg q.role q.word) := by
  simp [decode, hsel]

/-- `REG` under a code outside the closed set ends in the error, whatever the other operands. -/
theorem step_of_roleErr {q : Query} {rest : List Query} {s : State} (hqueue : s.queue = q :: rest)
    (hsel : q.select = 23#8) (herr : roleErr q.role = true) :
    step s = .fault (.contractViolation q.role) := by
  rw [step_of_decode hqueue (decode_of_select_reg hsel), decodeReg_of_roleErr herr,
    exec_regOutOfSet]

/-- A role code below 16 is the code of a role (spec/10_state.md R25). -/
theorem exists_role_of_lt {code : RoleCode} (h : code.toNat < 16) :
    ∃ role : Role, code = role.code :=
  (eq_code_or_roleErr code).resolve_right fun herr => by
    have := roleErr_iff.mp herr
    omega

/-- Settles O33: a code below 16 is that of a role, which the mapper resolves. -/
theorem roleOutsideTheSetIsFatal : Obligations.RoleOutsideTheSetIsFatal := by
  intro q rest s hqueue hsel
  refine ⟨fun h16 => step_of_roleErr hqueue hsel (roleErr_iff.mpr h16), fun h16 => ?_⟩
  obtain ⟨role, hrole⟩ := exists_role_of_lt h16
  obtain ⟨t, hexec, hanswers⟩ := answers_decodeReg_code role q.word { s with queue := rest }
  refine ⟨_, t, ?_, hanswers⟩
  rw [step_of_decode hqueue (decode_of_select_reg hsel), hrole, hexec]

/-- Settles O35: of the ways a query ends, the fault is that of `REG` outside the closed set. -/
theorem faultsComeOnlyFromTheRolePort : Obligations.FaultsComeOnlyFromTheRolePort := by
  refine fun s e => ⟨fun hstep => ?_, ?_⟩
  · obtain ⟨-, hidle⟩ | ⟨q, rest, hqueue, hends⟩ := step_ends s
    · cases hidle.symm.trans hstep
    · rw [hstep] at hends
      cases hends with
      | faults hsel herr => exact ⟨q, rest, hqueue, hsel, herr, rfl⟩
  · rintro ⟨q, rest, hqueue, hsel, herr, rfl⟩
    exact step_of_roleErr hqueue hsel herr

/-! ## The refusals -/

/-- The form an immediate query asks for, at the width it names: `IMM_EXT` or `IMM`. -/
def immediateForm (q : Query) : Width → Instr :=
  if q.select = 21#8 then fun width => decodeImmExt q.tag width q.value
  else fun width => .imm q.tag width q.word

theorem decode_of_select_width {q : Query} (hsel : q.select = 21#8 ∨ q.select = 22#8) :
    decode q = withWidth q.width (immediateForm q) := by
  obtain hsel | hsel := hsel <;> simp [decode, hsel, immediateForm]

/-- The queries that are none of DEC's are all rejected. -/
theorem decode_of_rejects {q : Query} {r : Reject} (h : Rejects q r) : decode q = .reject r := by
  cases h with
  | zeroMask hsel hmask => simp [decode, hsel, decodeExtract, hmask]
  | widthNotAdmitted hsel hwidth =>
    rw [decode_of_select_width hsel, withWidth, Width.ofBits_eq_none.mpr hwidth]
  | noSuchOperation hsel =>
    unfold decode
    split
    case h_26 => rfl
    all_goals omega
  | notAddClass hsel hword => simp [decode, hsel, decodeAddClass, hword]

theorem step_of_rejects {q : Query} {rest : List Query} {s : State} {r : Reject}
    (hqueue : s.queue = q :: rest) (h : Rejects q r) : step s = .refused (refusalOf r) := by
  rw [step_of_queue_cons hqueue, runQuery_of_reject (decode_of_rejects h)]

/-- Settles O2: the meaning checks its mask, and so does the decoder. -/
theorem extractWithZeroMaskIsRefused : Obligations.ExtractWithZeroMaskIsRefused :=
  ⟨fun _ _ => rfl, fun _ _ _ hqueue hsel hmask => step_of_rejects hqueue (.zeroMask hsel hmask)⟩

/-- Settles O36: of the ways a query ends, the refusals are those of the decoder, and it makes every
one of them. -/
theorem refusalsAreExactlyTheNamedOnes : Obligations.RefusalsAreExactlyTheNamedOnes := by
  refine fun s e => ⟨fun hstep => ?_, ?_⟩
  · obtain ⟨-, hidle⟩ | ⟨q, rest, hqueue, hends⟩ := step_ends s
    · cases hidle.symm.trans hstep
    · rw [hstep] at hends
      refine ⟨q, rest, hqueue, ?_⟩
      cases hends with
      | refused r hrejects =>
        cases hrejects with
        | zeroMask hsel hmask => exact .inl ⟨hsel, hmask, rfl⟩
        | widthNotAdmitted hsel hwidth =>
          obtain ⟨h0, h32, h64⟩ := hwidth
          exact .inr (.inl ⟨hsel, h0, h32, h64, rfl⟩)
        | noSuchOperation hsel => exact .inr (.inr (.inl ⟨hsel, rfl⟩))
        | notAddClass hsel hword => exact .inr (.inr (.inr ⟨hsel, hword, rfl⟩))
  · rintro ⟨q, rest, hqueue, ⟨hsel, hmask, rfl⟩ | ⟨hsel, h0, h32, h64, rfl⟩ | ⟨hsel, rfl⟩ |
      ⟨hsel, hword, rfl⟩⟩
    · exact step_of_rejects hqueue (.zeroMask hsel hmask)
    · exact step_of_rejects hqueue (.widthNotAdmitted hsel ⟨h0, h32, h64⟩)
    · exact step_of_rejects hqueue (.noSuchOperation hsel)
    · exact step_of_rejects hqueue (.notAddClass hsel hword)

/-! ## The caller's first contract -/

/-- No presented query decodes to the form outside the closed set (R143 a). -/
def QueueKeepsContract (s : State) : Prop :=
  ∀ q ∈ s.queue, ∀ i, decode q = .instr i → keepsContract i = true

theorem step_ne_fault_of_queueKeepsContract {s : State} (h : QueueKeepsContract s) (e : Fault) :
    step s ≠ .fault e := by
  intro hstep
  obtain ⟨q, rest, hqueue, hsel, herr, -⟩ := (faultsComeOnlyFromTheRolePort s e).mp hstep
  have hkeeps := h q (by simp [hqueue]) _ (decode_of_select_reg hsel)
  rw [decodeReg_of_roleErr herr] at hkeeps
  exact Bool.false_ne_true hkeeps

/-- A step presents no query. -/
theorem queue_subset_of_step {s t : State} (hstep : step s = .next t) : t.queue ⊆ s.queue := by
  obtain ⟨-, hidle⟩ | ⟨q, rest, hqueue, hends⟩ := step_ends s
  · obtain rfl : s = t := Host.Outcome.next.inj (hidle.symm.trans hstep)
    exact List.Subset.refl _
  · rw [hstep] at hends
    cases hends with
    | completes => exact hqueue ▸ List.subset_cons_self q rest

theorem queueKeepsContract_of_step {s t : State} (h : QueueKeepsContract s)
    (hstep : step s = .next t) : QueueKeepsContract t :=
  fun q hq => h q (queue_subset_of_step hstep hq)

/-- Settles O60: the only fault is of a query that breaks the contract, and a step presents none. -/
theorem contractKeepingQueueStaysSo : Obligations.ContractKeepingQueueStaysSo :=
  fun _ h => ⟨step_ne_fault_of_queueKeepsContract h,
    fun _ hstep => queueKeepsContract_of_step h hstep⟩

/-- Settles O37: by induction on the number of steps, over the states that keep the contract. -/
theorem contractKeepingCallerNeverFaults : Obligations.ContractKeepingCallerNeverFaults := by
  intro s h k e
  change QueueKeepsContract s at h
  induction k generalizing s with
  | zero => nofun
  | succ k ih =>
    cases hstep : step s with
    | next t => exact run_succ_of_next hstep k ▸ ih t (queueKeepsContract_of_step h hstep)
    | fault e' => exact absurd hstep (step_ne_fault_of_queueKeepsContract h e')
    | refused e' => exact run_succ_of_refused hstep k ▸ nofun

/-! ## The widths of an immediate -/

/-- Both immediate queries answer an immediate of the width asked. -/
theorem answers_immediateForm (q : Query) (width : Width) (s : State) :
    ∃ tag value, Answers (immediateForm q width) s (immExtAnswer width tag value) := by
  unfold immediateForm
  split
  · exact ⟨_, _, answers_decodeImmExt q.tag width q.value s⟩
  · exact ⟨_, _, answers_imm q.tag width q.word s⟩

/-- An immediate at an admitted width completes with an immediate of that width
(spec/42_immediate_router.md R107). -/
theorem step_of_width {q : Query} {rest : List Query} {s : State} {width : Width}
    (hqueue : s.queue = q :: rest) (hsel : q.select = 21#8 ∨ q.select = 22#8)
    (hwidth : Width.ofBits q.width = some width) :
    ∃ t tag value, step s = .next t ∧ t.answers = s.answers ++ [immExtAnswer width tag value] := by
  have hdec : decode q = .instr (immediateForm q width) := by
    rw [decode_of_select_width hsel, withWidth, hwidth]
  obtain ⟨tag, value, t, hexec, hanswers⟩ :=
    answers_immediateForm q width { s with queue := rest }
  exact ⟨t, tag, value, (step_of_decode hqueue hdec).trans hexec, hanswers⟩

/-- A query that names no width is read as one that names 32 (R107; log entry 5). -/
theorem decode_of_width_zero {q : Query} (hsel : q.select = 21#8 ∨ q.select = 22#8)
    (hwidth : q.width = 0#8) : decode q = decode { q with width := 32#8 } := by
  rw [decode_of_select_width hsel, decode_of_select_width (q := { q with width := 32#8 }) hsel,
    hwidth]
  rfl

/-- Settles O59: the decoder's table of widths, and the default of the ports. -/
theorem widthIsThirtyTwoOrSixtyFourAndThirtyTwoByDefault :
    Obligations.WidthIsThirtyTwoOrSixtyFourAndThirtyTwoByDefault := by
  refine ⟨fun q rest s hqueue hsel => ⟨fun h32 => ?_, fun h64 => ?_, fun h0 => ?_, ?_⟩,
    fun _ => rfl⟩
  · obtain ⟨t, tag, value, hstep, hanswers⟩ := step_of_width (width := .w32) hqueue hsel
      (congrArg Width.ofBits h32)
    exact ⟨t, _, hstep, hanswers⟩
  · obtain ⟨t, tag, value, hstep, hanswers⟩ := step_of_width (width := .w64) hqueue hsel
      (congrArg Width.ofBits h64)
    exact ⟨t, _, hstep, hanswers⟩
  · rw [step_of_queue_cons hqueue, step_of_queue_cons rfl, runQuery, runQuery,
      decode_of_width_zero hsel h0]
  · exact fun h0 h32 h64 => step_of_rejects hqueue (.widthNotAdmitted hsel ⟨h0, h32, h64⟩)

/-! ## Bare words -/

/-- A bare word is the query `DECODE` of it (log entry 3). -/
theorem tableQuery_word (word : Word) : tableQuery 32 word.toNat = wordQuery 0 word := by
  have hbits : BitVec.ofNat 88 (word.toNat % 2 ^ 32) = (wordQuery 0 word).toBits := by
    have hlt : word.toNat < 2 ^ 88 := word.isLt.trans (by decide)
    refine BitVec.eq_of_toNat_eq ?_
    rw [Nat.mod_eq_of_lt word.isLt, BitVec.toNat_ofNat, Nat.mod_eq_of_lt hlt]
    change word.toNat = ((0#5 ++ 0#3 ++ 0#8 ++ 0#8 ++ 0#32) ++ word).toNat
    rw [BitVec.toNat_append]
    simp
  rw [tableQuery, hbits, Query.ofBits_toBits]

/-- Settles O12: `DECODE` refuses no word (R50), and its bundle names the word. -/
theorem noInstructionWordIsIllegal : Obligations.NoInstructionWordIsIllegal := by
  intro word s
  obtain ⟨t, hexec, hanswers⟩ := answers_decode word s
  refine ⟨decodeFields word, t, ?_, hanswers, fieldValue_bytes word, exec_next_queue hexec⟩
  rw [State.withFetchWord, tableQuery_word]
  exact (step_of_decode (State.present_queue ..) rfl).trans hexec

end Sys2Proof.Claims

/-! PROOFS: `EXTRACT`, the fields and the views beside the tables (spec/40_bitfield_extractor.md,
spec/30_encoding.md). -/

namespace Sys2Proof.Claims

open Sys2Proof.Machine

/-! ## `EXTRACT` -/

/-- The least set bit of a mask is the only bit that is set with none below it. -/
theorem ctz_eq_of_least {mask : Word} (h : mask ≠ 0#32) {n : Nat} (hset : mask.getLsbD n = true)
    (hleast : ∀ j < n, mask.getLsbD j = false) : ctz mask h = n := by
  obtain ⟨-, hctz, hbelow⟩ := ctz_spec mask h
  refine Nat.le_antisymm (Nat.le_of_not_lt fun hlt => ?_) (Nat.le_of_not_lt fun hlt => ?_)
  · exact Bool.false_ne_true ((hbelow n hlt).symm.trans hset)
  · exact Bool.false_ne_true ((hleast _ hlt).symm.trans hctz)

/-- Settles O57: the masked word is at most the mask, and the shift keeps that. -/
theorem extractStaysBelowItsMaskAndDrivesNoPort :
    Obligations.ExtractStaysBelowItsMaskAndDrivesNoPort := by
  intro word mask s h
  refine ⟨extract word mask h, execExtract_next word mask s h, fun n hset hleast => ?_⟩
  rw [extract, ctz_eq_of_least h hset hleast, BitVec.toNat_ushiftRight, BitVec.toNat_ushiftRight,
    BitVec.toNat_and, Nat.shiftRight_eq_div_pow, Nat.shiftRight_eq_div_pow]
  exact Nat.div_le_div_right Nat.and_le_right

/-- The mask of `w` ones at position `o`. -/
abbrev onesAt (w o : Nat) : Word := BitVec.ofNat 32 (2 ^ w - 1) <<< o

theorem getLsbD_ones (w : Nat) {k : Nat} (hk : k < 32) :
    (BitVec.ofNat 32 (2 ^ w - 1)).getLsbD k = decide (k < w) := by
  rw [BitVec.getLsbD_ofNat, Nat.testBit_two_pow_sub_one, decide_eq_true hk, Bool.true_and]

theorem getLsbD_onesAt (w : Nat) {o k : Nat} (hk : o + k < 32) :
    (onesAt w o).getLsbD (o + k) = decide (k < w) := by
  rw [BitVec.getLsbD_shiftLeft, Nat.add_sub_cancel_left, getLsbD_ones w (by omega)]
  simp [hk]

theorem getLsbD_onesAt_self {w o : Nat} (hw : 1 ≤ w) (how : o + w ≤ 32) :
    (onesAt w o).getLsbD o = true :=
  (getLsbD_onesAt w (k := 0) (by omega)).trans (decide_eq_true hw)

theorem onesAt_ne_zero {w o : Nat} (hw : 1 ≤ w) (how : o + w ≤ 32) : onesAt w o ≠ 0#32 := by
  intro h0
  have hset := getLsbD_onesAt_self hw how
  rw [h0, BitVec.getLsbD_zero] at hset
  exact Bool.false_ne_true hset

/-- Under a contiguous mask `EXTRACT` shifts by the mask's position and keeps its ones (R64). -/
theorem extract_onesAt (word : Word) {w o : Nat} (hw : 1 ≤ w) (how : o + w ≤ 32) :
    extract word (onesAt w o) (onesAt_ne_zero hw how) =
      (word >>> o) &&& BitVec.ofNat 32 (2 ^ w - 1) := by
  have hctz : ctz (onesAt w o) (onesAt_ne_zero hw how) = o :=
    ctz_eq_of_least _ (getLsbD_onesAt_self hw how) fun j hj => by simp [onesAt, hj]
  refine BitVec.eq_of_getLsbD_eq fun k hk => ?_
  rw [getLsbD_extract, hctz, BitVec.getLsbD_and, BitVec.getLsbD_ushiftRight, getLsbD_ones w hk]
  by_cases hin : o + k < 32
  · rw [getLsbD_onesAt w hin]
  · simp [BitVec.getLsbD_of_ge word (o + k) (Nat.le_of_not_lt hin)]

/-- Settles O3: the mask's least set bit is `o`, and what it keeps is at most `w` ones. -/
theorem contiguousMaskSelectsABitRange : Obligations.ContiguousMaskSelectsABitRange := by
  intro word s w o hw how
  refine ⟨extract_onesAt word hw how ▸ answers_extract word (onesAt_ne_zero hw how) s, ?_⟩
  calc ((word >>> o) &&& BitVec.ofNat 32 (2 ^ w - 1)).toNat
    _ ≤ (2 ^ w - 1) % 2 ^ 32 := by
      rw [BitVec.toNat_and, BitVec.toNat_ofNat]
      exact Nat.and_le_right
    _ ≤ 2 ^ w - 1 := Nat.mod_le _ _
    _ < 2 ^ w := Nat.sub_one_lt_of_lt (Nat.two_pow_pos w)

/-! ## The fields and the views -/

/-- Settles O58: put back at their places, `rd`, `shamt` and `funct` are the word under their masks,
and those together are the mask of `imm`. -/
theorem immIsRdShamtAndFunctTogether : Obligations.ImmIsRdShamtAndFunctTogether := by
  intro word s
  refine ⟨_, _, _, _, answers_fieldQuery .imm word s, answers_fieldQuery .rd word s,
    answers_fieldQuery .shamt word s, answers_fieldQuery .funct word s, ?_⟩
  have hmasks : fieldMask .imm = fieldMask .rd ||| fieldMask .shamt ||| fieldMask .funct := by
    decide
  calc fieldValue .imm word
    _ = word &&& fieldMask .imm := by
      rw [← fieldValue_shiftLeft_fieldOffset, fieldOffset, BitVec.shiftLeft_zero]
    _ = (word &&& fieldMask .rd ||| word &&& fieldMask .shamt ||| word &&& fieldMask .funct) := by
      rw [hmasks, BitVec.and_or_distrib_left, BitVec.and_or_distrib_left]
    _ = _ := by
      simp only [← fieldValue_shiftLeft_fieldOffset, fieldOffset, BitVec.shiftLeft_zero]

theorem viewROf_eq (word : Word) : viewROf word =
    { opcode := word.extractLsb' 26 6, rs := word.extractLsb' 21 5, rt := word.extractLsb' 16 5,
      rd := word.extractLsb' 11 5, shamt := word.extractLsb' 6 5,
      funct := word.extractLsb' 0 6 } := by
  rw [viewROf, ViewR.mk.injEq]
  exact ⟨setWidth_fieldValue .opcode word rfl, regIndex_rs word, regIndex_rt word,
    regIndex_rd word, setWidth_fieldValue .shamt word rfl, setWidth_fieldValue .funct word rfl⟩

theorem viewIOf_eq (word : Word) : viewIOf word =
    { opcode := word.extractLsb' 26 6, rs := word.extractLsb' 21 5, rt := word.extractLsb' 16 5,
      imm := word.extractLsb' 0 16 } := by
  rw [viewIOf, ViewI.mk.injEq]
  exact ⟨setWidth_fieldValue .opcode word rfl, regIndex_rs word, regIndex_rt word,
    setWidth_fieldValue .imm word rfl⟩

theorem viewJOf_eq (word : Word) : viewJOf word =
    { opcode := word.extractLsb' 26 6, jump := word.extractLsb' 0 26 } := by
  rw [viewJOf, ViewJ.mk.injEq]
  exact ⟨setWidth_fieldValue .opcode word rfl, setWidth_fieldValue .jump word rfl⟩

theorem viewCp1Of_eq (word : Word) : viewCp1Of word =
    { opcode := word.extractLsb' 26 6, fmt := word.extractLsb' 21 5, ft := word.extractLsb' 16 5,
      fs := word.extractLsb' 11 5, fd := word.extractLsb' 6 5, funct := word.extractLsb' 0 6 } := by
  rw [viewCp1Of, ViewCp1.mk.injEq]
  exact ⟨setWidth_fieldValue .opcode word rfl, regIndex_fmt word, regIndex_ft word,
    regIndex_fs word, regIndex_fd word, setWidth_fieldValue .funct word rfl⟩

/-- Settles O11: the fields of a view are adjacent bit ranges, from bit 31 to bit 0. -/
theorem viewsTileTheWord : Obligations.ViewsTileTheWord := by
  intro word s
  have hr : Answers (.viewR word) s (.viewR (viewROf word)) := ⟨_, rfl, rfl⟩
  have hi : Answers (.viewI word) s (.viewI (viewIOf word)) := ⟨_, rfl, rfl⟩
  have hj : Answers (.viewJ word) s (.viewJ (viewJOf word)) := ⟨_, rfl, rfl⟩
  have hc : Answers (.viewCp1 word) s (.viewCp1 (viewCp1Of word)) := ⟨_, rfl, rfl⟩
  have hw : Answers (.viewWord word) s (.viewWord (fieldValue .bytes word)) := ⟨_, rfl, rfl⟩
  rw [viewROf_eq] at hr
  rw [viewIOf_eq] at hi
  rw [viewJOf_eq] at hj
  rw [viewCp1Of_eq] at hc
  rw [fieldValue_bytes] at hw
  refine ⟨_, _, _, _, ⟨hr, ?_⟩, ⟨hi, ?_, ?_⟩, ⟨hj, ?_, ?_⟩, ⟨hc, ?_⟩, hw⟩
  all_goals simp (disch := omega) only [BitVec.extractLsb'_append_extractLsb'_eq_extractLsb',
    BitVec.extractLsb'_eq_self]

end Sys2Proof.Claims

/-! PROOFS: immediates under the sign-extending tags, and composed (spec/42_immediate_router.md). -/

namespace Sys2Proof.Claims

open Sys2Proof.Machine

theorem signExtends16_signExtend16 (n : Nat) (value : Word) :
    SignExtends16 value (signExtend16 n value) :=
  fun _ hk => getLsbD_signExtend16 value hk

/-- Sign extension reads the low 16 bits alone. -/
theorem SignExtends16.congr {n : Nat} {value value' : Word} {v : BitVec n}
    (hlow : ∀ k < 16, value.getLsbD k = value'.getLsbD k) (h : SignExtends16 value v) :
    SignExtends16 value' v := fun k hk =>
  (h k hk).trans (hlow _ (by split <;> omega))

/-- Settles O16: bit by bit, at either width. -/
theorem immExtSignExtendsUnderArithmetic : Obligations.ImmExtSignExtendsUnderArithmetic := by
  intro value s
  exact ⟨signExtend16 32 value, signExtend16 64 value, extRow_of_eq rfl rfl rfl,
    signExtends16_signExtend16 32 value, signExtends16_signExtend16 64 value⟩

/-- Settles O17: a code from 5 selects an OTHER form, and behaves as `Arithmetic`. -/
theorem unnamedTagsActAsArithmetic : Obligations.UnnamedTagsActAsArithmetic := by
  intro code word value s hcode
  have hother := checkOtherTag_eq_none hcode
  have htag : Tag.ofCode code = .arithmetic := ofCode_eq_arithmetic (by omega)
  have hraw : RawRow code (.immRawOther code word) word s (fieldValue .imm word) :=
    rawRow_of_eq (decodeImmRaw_other hother word) (htag ▸ rfl)
  have hext : ExtRow code (.immExtOther code) value s (signExtend16 32 value)
      (signExtend16 64 value) :=
    extRow_of_eq (funext₂ (decodeImmExt_other hother)) (htag ▸ rfl) (htag ▸ rfl)
  exact ⟨⟨_, hraw, answers_decodeImmRaw Tag.arithmetic.code word s,
      answers_fieldQuery .imm word s⟩,
    _, _, hext, answers_decodeImmExt Tag.arithmetic.code .w32 value s,
    answers_decodeImmExt Tag.arithmetic.code .w64 value s,
    signExtends16_signExtend16 32 value, signExtends16_signExtend16 64 value⟩

/-- Settles O21: `IMM` routes and extends under one tag, as the two queries do in turn. -/
theorem composedImmediateIsExtOfRaw : Obligations.ComposedImmediateIsExtOfRaw := by
  intro code width word s
  exact ⟨_, _, answers_decodeImmRaw code word s, answers_decodeImmExt code width _ s,
    answers_imm code width word s⟩

/-- Settles O22: the jump field holds the low 26 bits of the word, so the low 16 that are read. -/
theorem unpairedJumpValueIsSignExtended : Obligations.UnpairedJumpValueIsSignExtended := by
  intro word s
  have hlow : ∀ k < 16, (fieldValue .jump word).getLsbD k = word.getLsbD k := by
    intro k hk
    have hfield : k < fieldWidth .jump := hk.trans (by decide)
    rw [getLsbD_fieldValue_of_offset_zero rfl, decide_eq_true hfield, Bool.true_and]
  exact ⟨_, _, answers_decodeImmRaw Tag.jump.code word s,
    answers_decodeImmExt Tag.arithmetic.code .w32 _ s,
    (signExtends16_signExtend16 32 _).congr hlow⟩

end Sys2Proof.Claims

/-! PROOFS: the register mapper's roles against each other (spec/43_register_mapper.md). -/

namespace Sys2Proof.Claims

open Sys2Proof.Machine

/-! ## The fixed indices -/

/-- Settles O27: the fixed roles resolve to literal descriptors. -/
theorem fixedIndexRoles : Obligations.FixedIndexRoles := by
  intro word s
  exact ⟨roleRow_of_eq .zero rfl rfl, roleRow_of_eq .ra rfl rfl, roleRow_of_eq .sr rfl rfl,
    roleRow_of_eq .epc rfl rfl, roleRow_of_eq .fcsr rfl rfl⟩

/-- The five roles whose register is a fixed index. -/
def rolesOfFixedIndex : List Role := [.zero, .ra, .sr, .epc, .fcsr]

/-- The mapper reads no fixed index under another role. -/
theorem resolveReg_congr_indices {role : Role} (h : role ∉ rolesOfFixedIndex) (ix ix' : Indices)
    (f : Fields) : resolveReg ix f role = resolveReg ix' f role := by
  cases role
  case zero | ra | sr | epc | fcsr => exact absurd (by decide) h
  all_goals rfl

/-- Five indices of which none is the machine's. -/
def otherIndices : Indices := { zero := 1, ra := 0, sr := 0, epc := 0, fcsr := 0 }

theorem resolveReg_otherIndices_ne {role : Role} (h : role ∈ rolesOfFixedIndex) (f : Fields) :
    resolveReg otherIndices f role ≠ resolveReg fixedIndices f role := by
  cases role
  case zero | ra | sr | epc | fcsr => simp [resolveReg, otherIndices, fixedIndices]
  all_goals exact absurd h (by decide)

/-- Settles O31: five roles are resolved to an index that may be another; the others read none. -/
theorem onlyFiveRolesDependOnTheIndices : Obligations.OnlyFiveRolesDependOnTheIndices := by
  refine ⟨fun ix word role hrole s => ?_, fun role hrole word s => ?_⟩
  · rw [resolveReg_congr_indices hrole ix fixedIndices]
    exact answers_decodeReg_code role word s
  · exact ⟨otherIndices, _, answers_decodeReg_code role word s,
      resolveReg_otherIndices_ne hrole _⟩

/-! ## Descriptor codes -/

/-- The descriptor of a file code and an index (spec/10_state.md R26). -/
def descOfParts (file : BitVec 3) (index : RegIndex) : RegDesc :=
  match file.toNat with
  | 0 => .gpr index
  | 1 => .fpr index
  | 2 => .cp0 index
  | 3 => if index = 0#5 then .hi else .lo
  | _ => .fcr index

/-- The descriptor a code is of. -/
def descOfCode (code : DescCode) : RegDesc :=
  descOfParts (code.extractLsb' 5 3) (code.extractLsb' 0 5)

theorem descOfCode_append (file : BitVec 3) (index : RegIndex) :
    descOfCode (file ++ index) = descOfParts file index := by
  simp (disch := omega) only [descOfCode, BitVec.extractLsb'_append_eq_of_le,
    BitVec.extractLsb'_append_eq_of_add_le, Nat.sub_self, BitVec.extractLsb'_eq_self]

theorem descOfCode_code (d : RegDesc) : descOfCode d.code = d := by
  cases d
  all_goals exact descOfCode_append _ _

/-- Settles O32: the descriptor can be read back off its code. -/
theorem descriptorCodesAreInjective : Obligations.DescriptorCodesAreInjective :=
  fun _ _ h => Function.LeftInverse.injective descOfCode_code h

/-! ## The index-bearing roles -/

/-- The role resolves to the register of its file that the five bits from bit `o` name. -/
def ReadsIndex (role : Role) (o : Nat) (file : RegIndex → RegDesc) : Prop :=
  ∀ word, resolveReg fixedIndices (decodeFields word) role = file (word.extractLsb' o 5)

theorem readsIndex_rs : ReadsIndex .rs 21 .gpr :=
  fun word => congrArg RegDesc.gpr (regIndex_rs word)
theorem readsIndex_rt : ReadsIndex .rt 16 .gpr :=
  fun word => congrArg RegDesc.gpr (regIndex_rt word)
theorem readsIndex_rd : ReadsIndex .rd 11 .gpr :=
  fun word => congrArg RegDesc.gpr (regIndex_rd word)
theorem readsIndex_cp0Rd : ReadsIndex .cp0Rd 11 .cp0 :=
  fun word => congrArg RegDesc.cp0 (regIndex_rd word)
theorem readsIndex_fd : ReadsIndex .fd 6 .fpr :=
  fun word => congrArg RegDesc.fpr (regIndex_fd word)
theorem readsIndex_fs : ReadsIndex .fs 11 .fpr :=
  fun word => congrArg RegDesc.fpr (regIndex_fs word)
theorem readsIndex_ft : ReadsIndex .ft 16 .fpr :=
  fun word => congrArg RegDesc.fpr (regIndex_ft word)
theorem readsIndex_fr : ReadsIndex .fr 21 .fpr :=
  fun word => congrArg RegDesc.fpr (regIndex_fmt word)

theorem ReadsIndex.answers {role : Role} {o : Nat} {file : RegIndex → RegDesc}
    (h : ReadsIndex role o file) (word : Word) (s : State) :
    Answers (decodeReg role.code word) s (.desc (file (word.extractLsb' o 5))) :=
  h word ▸ answers_decodeReg_code role word s

/-- Two words that agree on the role's five bits have one descriptor. -/
theorem ReadsIndex.descriptor_congr {role : Role} {o : Nat} {file : RegIndex → RegDesc}
    (h : ReadsIndex role o file) (word word' : Word) (s s' : State)
    (hbits : word.extractLsb' o 5 = word'.extractLsb' o 5) :
    ∃ d, Answers (decodeReg role.code word) s (.desc d) ∧
      Answers (decodeReg role.code word') s' (.desc d) :=
  ⟨_, h.answers word s, hbits ▸ h.answers word' s'⟩

/-- An index put at bit `o` of a word stands there. -/
theorem extractLsb'_setWidth_shiftLeft (i : RegIndex) {o : Nat} (ho : o + 5 ≤ 32) :
    (i.setWidth 32 <<< o).extractLsb' o 5 = i := by
  refine BitVec.eq_of_getLsbD_eq fun k hk => ?_
  rw [BitVec.getLsbD_extractLsb', BitVec.getLsbD_shiftLeft, Nat.add_sub_cancel_left,
    BitVec.getLsbD_setWidth]
  simp [hk, show o + k < 32 by omega, show k < 32 by omega]

theorem ReadsIndex.reaches {role : Role} {o : Nat} {file : RegIndex → RegDesc}
    (h : ReadsIndex role o file) (ho : o + 5 ≤ 32) (i : RegIndex) (s : State) :
    ∃ word, Answers (decodeReg role.code word) s (.desc (file i)) := by
  have hanswer := h.answers (i.setWidth 32 <<< o) s
  rw [extractLsb'_setWidth_shiftLeft i ho] at hanswer
  exact ⟨_, hanswer⟩

/-- Settles O29: each of the eight roles reads five bits, and a word may hold any index there. -/
theorem indexRolesReadOneFieldAndReachTheirFile :
    Obligations.IndexRolesReadOneFieldAndReachTheirFile := by
  refine ⟨?_, fun i s => ⟨readsIndex_rs.reaches (by decide) i s,
    readsIndex_rt.reaches (by decide) i s, readsIndex_rd.reaches (by decide) i s,
    readsIndex_cp0Rd.reaches (by decide) i s, readsIndex_fd.reaches (by decide) i s,
    readsIndex_fs.reaches (by decide) i s, readsIndex_ft.reaches (by decide) i s,
    readsIndex_fr.reaches (by decide) i s⟩⟩
  simp only [List.forall_mem_cons]
  exact ⟨readsIndex_rs.descriptor_congr, readsIndex_fr.descriptor_congr,
    readsIndex_rt.descriptor_congr, readsIndex_ft.descriptor_congr,
    readsIndex_rd.descriptor_congr, readsIndex_cp0Rd.descriptor_congr,
    readsIndex_fs.descriptor_congr, readsIndex_fd.descriptor_congr, nofun⟩

/-! ## Coincidences -/

/-- A five-bit field is a given index exactly when its value, as shifted and masked, is. -/
theorem extractLsb'_eq_iff {n : FieldName} (hn : fieldWidth n = 5) (word : Word) (i : RegIndex) :
    word.extractLsb' (fieldOffset n) 5 = i ↔
      (word >>> fieldOffset n) &&& 0x1F#32 = i.setWidth 32 := by
  rw [← fieldValue_of_width_five n hn, fieldValue_eq_extractLsb', hn]
  exact ⟨congrArg _, fun h => by simpa using congrArg (BitVec.setWidth 5) h⟩

/-- Settles O30: two descriptors of one file are equal exactly when their indices are, and those of
different files never are. -/
theorem fixedAndIndexedRolesMeetExactlyAtTheFixedIndices :
    Obligations.FixedAndIndexedRolesMeetExactlyAtTheFixedIndices := by
  intro word s
  have hrole := fun role => answers_decodeReg_code role word s
  refine ⟨_, _, _, _, _, _, _, _, _, readsIndex_rs.answers word s, readsIndex_rd.answers word s,
    readsIndex_cp0Rd.answers word s, readsIndex_fs.answers word s, hrole .zero, hrole .ra,
    hrole .sr, hrole .epc, hrole .fcsr, ?_, ?_, ?_, ?_, nofun, nofun, nofun, nofun⟩
  · exact RegDesc.gpr.injEq .. ▸ extractLsb'_eq_iff (n := .rs) rfl word 0
  · exact RegDesc.gpr.injEq .. ▸ extractLsb'_eq_iff (n := .rd) rfl word 31
  · exact RegDesc.cp0.injEq .. ▸ extractLsb'_eq_iff (n := .rd) rfl word 12
  · exact RegDesc.cp0.injEq .. ▸ extractLsb'_eq_iff (n := .rd) rfl word 14

/-! ## The ADD class -/

/-- The fixed fields of an ADD-class word (R54). -/
theorem addClassWord_opcode_funct (rs rt rd shamt : BitVec 5) :
    fieldValue .opcode (addClassWord rs rt rd shamt) = 0#32 ∧
      fieldValue .funct (addClassWord rs rt rd shamt) = 0x20#32 := by
  constructor
  all_goals
    rw [fieldValue_eq_extractLsb']
    simp (disch := omega) only [fieldOffset, fieldWidth, addClassWord,
      BitVec.extractLsb'_append_eq_of_le, BitVec.extractLsb'_append_eq_of_add_le, Nat.reduceSub,
      BitVec.extractLsb'_eq_self, BitVec.reduceSetWidth]

/-- Settles O13: the three roles read back the fields the word was built of. -/
theorem addClassNamesItsDestinationAndSources :
    Obligations.AddClassNamesItsDestinationAndSources := by
  refine ⟨fun rs rt rd shamt s => ?_, rfl⟩
  obtain ⟨hrs, hrt, hrd, -⟩ := addClassWord_fields rs rt rd shamt
  obtain ⟨hopcode, hfunct⟩ := addClassWord_opcode_funct rs rt rd shamt
  have hdest := (readsIndex_rd (addClassWord rs rt rd shamt)).trans (congrArg RegDesc.gpr hrd)
  have hsrc1 := (readsIndex_rs (addClassWord rs rt rd shamt)).trans (congrArg RegDesc.gpr hrs)
  have hsrc2 := (readsIndex_rt (addClassWord rs rt rd shamt)).trans (congrArg RegDesc.gpr hrt)
  exact ⟨addClassWord rs rt rd shamt, _, _, _, ⟨_, rfl, rfl⟩, rfl,
    answers_fieldQuery_of_eq hopcode s, answers_fieldQuery_of_eq hfunct s,
    answers_decodeReg_code .rd _ s, answers_decodeReg_code .rs _ s, answers_decodeReg_code .rt _ s,
    hdest, hsrc1, hsrc2⟩

end Sys2Proof.Claims

/-! PROOFS: what every form drives, and the output ports (spec/10_state.md). -/

namespace Sys2Proof.Claims

open Sys2Proof.Machine

/-! ## The next state of every form -/

/-- A word form drives the word port and no other. -/
theorem WordForm.frame {form : Word → Instr} (h : WordForm form) (word : Word) (s : State) :
    ∃ a, exec (form word) s =
      .next { s with inputs := { s.inputs with word := word }, answers := s.answers ++ [a] } := by
  obtain ⟨a, hexec, -⟩ := exec_wordForm h word
  exact ⟨a, hexec s⟩

/-- Settles O41: the nineteen are the word forms, and `ADD_CLASS` drives the word it stands for. -/
theorem wordQueriesChangeOnlyTheWordPort : Obligations.WordQueriesChangeOnlyTheWordPort := by
  refine ⟨?_, fun rs rt rd shamt s => ⟨_, rfl⟩⟩
  simp only [List.forall_mem_cons]
  exact ⟨WordForm.viewR.frame, WordForm.viewI.frame, WordForm.viewJ.frame, WordForm.viewCp1.frame,
    WordForm.viewWord.frame, WordForm.decode.frame, (WordForm.field .opcode).frame,
    (WordForm.field .rs).frame, (WordForm.field .rt).frame, (WordForm.field .rd).frame,
    (WordForm.field .shamt).frame, (WordForm.field .funct).frame, (WordForm.field .imm).frame,
    (WordForm.field .jump).frame, (WordForm.field .bytes).frame, (WordForm.field .fmt).frame,
    (WordForm.field .ft).frame, (WordForm.field .fs).frame, (WordForm.field .fd).frame, nofun⟩

theorem decodeImmRaw_frame (code : TagCode) (word : Word) (s : State) :
    ∃ a, exec (decodeImmRaw code word) s =
      .next { s with inputs := { s.inputs with word := word, rawTag := code }
                     answers := s.answers ++ [a] } :=
  ⟨_, exec_decodeImmRaw code word s⟩

/-- Settles O42: each of the five forms is that of its tag's code. -/
theorem immRawChangesOnlyWordAndRawTag : Obligations.ImmRawChangesOnlyWordAndRawTag := by
  refine ⟨?_, fun tag word s => ⟨_, rfl⟩⟩
  simp only [List.forall_mem_cons]
  exact ⟨decodeImmRaw_frame Tag.none.code, decodeImmRaw_frame Tag.shift.code,
    decodeImmRaw_frame Tag.jump.code, decodeImmRaw_frame Tag.logical.code,
    decodeImmRaw_frame Tag.arithmetic.code, nofun⟩

theorem decodeImmExt_frame (code : TagCode) (width : Width) (value : Word) :
    ∃ a, ∀ s : State, exec (decodeImmExt code width value) s =
      .next { s with inputs := { s.inputs with extTag := code, extValue := value }
                     answers := s.answers ++ [a] } :=
  ⟨_, exec_decodeImmExt code width value⟩

/-- Settles O43: each of the five forms is that of its tag's code, and the answer is made of the
operands. -/
theorem immExtChangesOnlyItsTagAndValue : Obligations.ImmExtChangesOnlyItsTagAndValue := by
  refine ⟨?_, fun tag width value => ⟨_, fun _ => rfl⟩⟩
  simp only [List.forall_mem_cons]
  exact ⟨decodeImmExt_frame Tag.none.code, decodeImmExt_frame Tag.shift.code,
    decodeImmExt_frame Tag.jump.code, decodeImmExt_frame Tag.logical.code,
    decodeImmExt_frame Tag.arithmetic.code, nofun⟩

/-- Settles O44: the raw value on the extension port is the one `IMM_RAW` answers. -/
theorem composedImmediateLeavesTheRolePort : Obligations.ComposedImmediateLeavesTheRolePort := by
  intro tag width word s
  exact ⟨_, _, answers_decodeImmRaw tag word s, rfl⟩

theorem decodeReg_frame (role : Role) (word : Word) (s : State) :
    ∃ a, exec (decodeReg role.code word) s =
      .next { s with inputs := { s.inputs with word := word, role := role.code }
                     answers := s.answers ++ [a] } :=
  ⟨_, exec_decodeReg_code role word s⟩

/-- Settles O45: each of the sixteen forms is that of its role's code. -/
theorem regChangesOnlyWordAndRole : Obligations.RegChangesOnlyWordAndRole := by
  unfold Obligations.RegChangesOnlyWordAndRole
  simp only [List.forall_mem_cons]
  exact ⟨decodeReg_frame .zero, decodeReg_frame .hi, decodeReg_frame .lo, decodeReg_frame .hiLo,
    decodeReg_frame .ra, decodeReg_frame .rs, decodeReg_frame .rt, decodeReg_frame .rd,
    decodeReg_frame .cp0Rd, decodeReg_frame .sr, decodeReg_frame .epc, decodeReg_frame .fd,
    decodeReg_frame .fs, decodeReg_frame .ft, decodeReg_frame .fr, decodeReg_frame .fcsr, nofun⟩

/-! ## The output ports -/

/-- A field query drives the word its field is read off on the port. -/
theorem fieldQuery_port (f : FieldName) {field : Fields → Word}
    (hfield : ∀ w, field (decodeFields w) = fieldValue f w) (word : Word) (n : Width) (s : State) :
    ∃ t, exec (fieldQuery f word) s = .next t ∧
      t.answers = s.answers ++ [.u32 (field (portOutputs t.inputs n).fields)] :=
  ⟨_, exec_fieldQuery f word s, congrArg (fun v => s.answers ++ [.u32 v]) (hfield word).symm⟩

/-- The `desc` port under the code of a role (spec/10_state.md R26). -/
theorem descPort_of_role {p : Inputs} {role : Role} (h : p.role = role.code) :
    descPort p = (resolveReg fixedIndices (decodeFields p.word) role).code := by
  simp [descPort, h]

/-- Under a role's code the descriptor `REG` answers is that of the word and the role it drives. -/
theorem decodeReg_port (role : Role) (word : Word) (n : Width) (s : State) :
    ∃ t d, exec (decodeReg role.code word) s = .next t ∧ t.answers = s.answers ++ [.desc d] ∧
      t.inputs.role = role.code ∧ (portOutputs t.inputs n).desc = d.code ∧
      (portOutputs t.inputs n).roleErr = false :=
  ⟨_, _, exec_decodeReg_code role word s, rfl, rfl, descPort_of_role rfl, roleErr_code role⟩

/-- Settles O47: ports and answers are the same functions, of the input ports a query drives. -/
theorem outputPortsShowTheAnswers : Obligations.OutputPortsShowTheAnswers := by
  intro word value tag role n s
  refine ⟨⟨_, rfl, rfl⟩, ?fields, ⟨_, exec_decodeImmRaw tag word s, rfl⟩,
    ⟨_, exec_decodeImmExt tag .w32 value s, rfl⟩, ⟨_, exec_decodeImmExt tag .w64 value s, rfl⟩,
    ⟨_, rfl, rfl, rfl⟩, ⟨_, rfl, rfl⟩, fun h16 => ?inSet, fun h16 => ?outOfSet⟩
  case fields =>
    have hport := fun f field hfield => fieldQuery_port f (field := field) hfield word n s
    simp only [List.forall_mem_cons]
    exact ⟨hport .opcode _ fun _ => rfl, hport .rs _ fun _ => rfl, hport .rt _ fun _ => rfl,
      hport .rd _ fun _ => rfl, hport .shamt _ fun _ => rfl, hport .funct _ fun _ => rfl,
      hport .imm _ fun _ => rfl, hport .jump _ fun _ => rfl, hport .bytes _ fun _ => rfl,
      hport .fmt _ fun _ => rfl, hport .ft _ fun _ => rfl, hport .fs _ fun _ => rfl,
      hport .fd _ fun _ => rfl, nofun⟩
  case inSet =>
    obtain ⟨r, rfl⟩ := exists_role_of_lt h16
    exact decodeReg_port r word n s
  case outOfSet =>
    have herr : roleErr role = true := roleErr_iff.mpr h16
    refine ⟨?_, fun p hp => (congrArg roleErr hp).trans herr⟩
    rw [decodeReg_of_roleErr herr, exec_regOutOfSet]

end Sys2Proof.Claims

/-! PROOFS: queries one after another (spec/20_memory.md, spec/95_test_vectors.md section 6). -/

namespace Sys2Proof.Claims

open Sys2Proof.Machine

/-! ## Order and repetition -/

theorem completes_of_next {i : Instr} {s t : State} (h : exec i s = .next t) :
    Completes (exec i) := by
  obtain hcompletes | ⟨e, hfault⟩ | ⟨e, hrefused⟩ := exec_cases i
  · exact hcompletes
  · cases (hfault s).symm.trans h
  · cases (hrefused s).symm.trans h

/-- Settles O39: each of the two answers is one and the same in every state. -/
theorem queriesCommute : Obligations.QueriesCommute := by
  intro i j s t u hi hj
  obtain ⟨a, drive, hexec, -⟩ := completes_of_next hi
  obtain ⟨b, drive', hexec', -⟩ := completes_of_next hj
  obtain rfl := answer_eq_next.mp ((hexec s).symm.trans hi)
  obtain rfl := answer_eq_next.mp ((hexec' _).symm.trans hj)
  exact ⟨a, b, _, _, rfl, List.append_assoc .., hexec' s, hexec _, List.append_assoc ..⟩

/-- Settles O40: driving the same ports again leaves them as they are. -/
theorem askingAgainGivesTheSameAnswer : Obligations.AskingAgainGivesTheSameAnswer := by
  intro i s t hi
  obtain ⟨a, drive, hexec, htwice⟩ := completes_of_next hi
  obtain rfl := answer_eq_next.mp ((hexec s).symm.trans hi)
  refine ⟨a, rfl, ?_⟩
  rw [hexec, htwice, answer]

/-! ## Programs -/

/-- Each answer is the one its query gives in every state. -/
def AnswersOf (p : List Instr) (out : List Answer) : Prop :=
  List.Forall₂ (fun i a => ∀ u, Answers i u a) p out

/-- One step of a program: its first query is answered, and the others wait. -/
theorem step_of_program {i : Instr} {p : List Instr} {s : State} (hwf : i.WellFormed)
    (hkeeps : keepsContract i = true) (hqueue : s.queue = (i :: p).map encode) :
    ∃ t a, step s = .next t ∧ t.queue = p.map encode ∧ t.answers = s.answers ++ [a] ∧
      ∀ u, Answers i u a := by
  obtain ⟨a, drive, hexec, -⟩ := exec_completes hwf hkeeps
  exact ⟨_, a, (step_of_decode hqueue (decode_encode hwf)).trans (hexec _), rfl, rfl,
    fun u => answers_of_exec_eq_answer (hexec u) rfl⟩

/-- Settles O55: by induction on the program, from any state that presents it. -/
theorem contractKeepingProgramsRunToTheirEnd :
    Obligations.ContractKeepingProgramsRunToTheirEnd := by
  intro p
  induction p with
  | nil => exact fun s _ hqueue => ⟨s, [], run_zero s, hqueue, (List.append_nil _).symm, .nil⟩
  | cons i p ih =>
    intro s hp hqueue
    obtain ⟨⟨hwf, hkeeps⟩, hp⟩ := List.forall_mem_cons.mp hp
    obtain ⟨t, a, hstep, htqueue, htanswers, ha⟩ := step_of_program hwf hkeeps hqueue
    obtain ⟨u, out, hrun, huqueue, huanswers, hout⟩ := ih t hp htqueue
    refine ⟨u, a :: out, (run_succ_of_next hstep _).trans hrun, huqueue, ?_, .cons ha hout⟩
    rw [huanswers, htanswers, List.append_assoc, List.singleton_append]

/-- A program has one list of answers. -/
theorem AnswersOf.unique {p : List Instr} {out out' : List Answer} (h : AnswersOf p out)
    (h' : AnswersOf p out') : out = out' :=
  List.right_unique_forall₂' (fun _ _ _ ha hb => (ha .reset).unique (hb .reset)) h h'

theorem AnswersOf.reverse {p : List Instr} {out : List Answer} (h : AnswersOf p out) :
    AnswersOf p.reverse out.reverse :=
  List.forall₂_reverse_iff.mpr h

/-- Settles O56: the answers of the reversed program are the answers of its queries. -/
theorem reversedProgramsGiveReversedAnswers : Obligations.ReversedProgramsGiveReversedAnswers := by
  intro p s s' hp hqueue hqueue'
  obtain ⟨t, out, hrun, -, hanswers, hout⟩ := contractKeepingProgramsRunToTheirEnd p s hp hqueue
  obtain ⟨t', out', hrun', -, hanswers', hout'⟩ := contractKeepingProgramsRunToTheirEnd p.reverse s'
    (fun i hi => hp i (List.mem_reverse.mp hi)) hqueue'
  obtain rfl : out' = out.reverse := AnswersOf.unique hout' (AnswersOf.reverse hout)
  exact ⟨t, t', out, hrun, List.length_reverse (as := p) ▸ hrun', hanswers, hanswers'⟩

end Sys2Proof.Claims
